-- ==== Sys2Proof/Word.lean ====
section
/-! DEFINITION. The value types of the CORE (spec/00_scope.md R8, R9): unsigned bytes, 32-bit words, files of sixteen
words, and the fixed-width byte strings of INIT. Their arithmetic is `BitVec`'s own: `+` wraps, `^^^` is bitwise. -/

namespace Sys2Proof

/-- `u8` of R9: one unsigned byte. -/
abbrev Byte := BitVec 8

/-- `u32` of R9: one unsigned 32-bit word. `+` on it is addition modulo 2^32 (R95). -/
abbrev Word := BitVec 32

/-- A file of sixteen words: the shape of `S`, `X` and `KS` (R20, R29, R30). -/
abbrev Words := Vector Word 16

/-- The key operand of INIT: exactly 32 bytes, first byte first (R7, R65). -/
abbrev Key := Vector Byte 32

/-- The nonce operand of INIT: exactly 12 bytes, first byte first (R7, R65). -/
abbrev Nonce := Vector Byte 12

end Sys2Proof
end

