-- ==== Sys2Proof/Config.lean ====
section
/-! DEFINITION. What is fixed for one CORE beside its rules: the one parameter of the spec (93_implementation_defined.md
V7) and the free values it leaves to the storage after reset (U3, V1; 70_reset_and_hazards.md R142). -/

namespace Sys2Proof

/-- The values of the parameter `CTR_WRAP` (93_implementation_defined.md V7). -/
inductive CtrWrap where
  /-- BC goes from 2^64 - 1 to 0 silently: the spec's default (R90, 92_eei_decisions.md D15). -/
  | wrap
  /-- CTRINC at BC = 2^64 - 1 is a fault. -/
  | stop
  deriving DecidableEq, Repr

/-- The parameter `CTR_WRAP` of this machine: the spec's default (V7, D15). -/
def Config.ctrWrap : CtrWrap := .wrap

/-- FREE VALUE. What a word of storage holds after a reset, where the spec says the word holds nothing it promises
(U3: "`any value` for the physical storage after reset"). The first argument is the number of the draw, the second the
place: `i` for `S[i]`, `16 + i` for `X[i]`, `32 + i` for `KS[i]`. It has no body, so no proof can rest on a value of it.
DESIGN CHOICE, log entry 1. -/
opaque Config.unwritten : Nat → Nat → Word

/-- FREE VALUE. What PEND holds where the spec gives it the value None: after a reset (R39) and once its byte has been
answered (R103). The argument is the number of the draw. It has no body. DESIGN CHOICE, log entry 3. -/
opaque Config.unwrittenByte : Nat → Byte

end Sys2Proof
end

