-- ==== Sys2Proof/Syntax.lean ====
section
/-! DEFINITION. The instructions of the CORE, one constructor per row of spec/opcode_table.json (30_encoding.md R78), and
the two forms they arrive in: a host command and a value of the sequencer. -/

namespace Sys2Proof

/-- What one step of the CORE can run: the two host commands and the four micro-operations of the sequencer. -/
inductive Instr where
  /-- INIT (R63, R65, R101): build the context from key, nonce and the 64-bit initial counter. -/
  | init (key : Key) (nonce : Nonce) (ctr : BitVec 64)
  /-- XORB (R64, R102): XOR the data byte `d` with the next keystream byte. -/
  | xorb (d : Byte)
  /-- COLROUND (R71, R85): the column half-round; `k` is `SEQ.K`. -/
  | colround (k : BitVec 5)
  /-- DIAGROUND (R71, R86): the diagonal half-round; `k` is `SEQ.K`. -/
  | diaground (k : BitVec 5)
  /-- FEEDFWD (R71, R89): feed-forward and keystream write. -/
  | feedfwd
  /-- CTRINC (R71, R90): counter increment and completion of the pending XORB. -/
  | ctrinc
  deriving DecidableEq, Repr

/-- One command as the host offers it: the 16-bit command word and the 416-bit operand value (R61). -/
structure Command where
  /-- `CMD`: OP in bits 3:0, RSV in bits 7:4, DATA in bits 15:8 (R62). -/
  cmd : BitVec 16
  /-- `PAYLOAD`, read by INIT only (R65, R67). -/
  payload : BitVec 416
  deriving DecidableEq, Repr

/-- The two encoded forms of an instruction: a command on the command port, or a value of the sequencer register
(format `SEQ` of the opcode table). -/
inductive Encoded where
  | command (c : Command)
  | sequencer (w : BitVec 7)
  deriving DecidableEq, Repr

/-- Why a word is no instruction, by name. -/
inductive Reject where
  /-- R68 (a): OP is 0x0 or in 0x3..0xF. -/
  | illegalOp
  /-- R68 (b): OP is 0x1 and RSV is not 0. -/
  | initReservedNotZero
  /-- R68 (b): OP is 0x1, RSV is 0 and DATA is not 0. -/
  | initDataNotZero
  /-- R68 (c): OP is 0x2 and RSV is not 0. -/
  | xorbReservedNotZero
  /-- R71 "(idle)": the sequencer selects no step. -/
  | sequencerIdle
  /-- R32: a value of SEQ outside the table. -/
  | sequencerOutOfRange
  deriving DecidableEq, Repr

/-- The result of decoding: total, an instruction or a rejection by name. -/
inductive Decoded where
  | instr (i : Instr)
  | rejected (r : Reject)
  deriving DecidableEq, Repr

/-- The instruction of a decoding, if there is one. -/
def Decoded.toOption : Decoded → Option Instr
  | .instr i => some i
  | .rejected _ => none

end Sys2Proof
end

