-- ==== Sys2Proof/Machine/State.lean ====
section
/-! DEFINITION. The state of one CORE (spec/10_state.md), what the outside holds for it (30_encoding.md R61, R69;
70_reset_and_hazards.md R140), the reasons a step can stop, and the state after reset (R39). -/

namespace Sys2Proof.Machine

open Sys2Proof

/-- The field PH of the sequencer, by the names of R32. -/
inductive Phase where
  | idle
  | round
  | feedfwd
  | ctrinc
  deriving DecidableEq, Repr

/-- The sequencer register SEQ = `{PH[1:0], K[4:0]}` (R32): all its 128 values, the unreachable ones too. -/
structure Seq where
  ph : Phase
  k : BitVec 5
  deriving DecidableEq, Repr

/-- `{IDLE, 0}` (R32, R39). -/
abbrev Seq.idle : Seq := { ph := .idle, k := 0#5 }

/-- The response codes (R70). The code 0b11 is never given, so it has no constructor. -/
inductive Rsp where
  | ok
  | illegal
  | noinit
  deriving DecidableEq, Repr

/-- One response `(RSP, DOUT)` (R69). -/
structure Response where
  rsp : Rsp
  dout : Byte
  deriving DecidableEq, Repr

/-- The two error outcomes (60_exceptions.md R120). -/
inductive ErrorCause where
  | illegalCommand
  | notInitialised
  deriving DecidableEq, Repr

/-- What the outside does at one step (R112): the level of the reset input, and a command newly offered, if any.
Log entry 4. -/
structure HostInput where
  reset : Bool
  offer : Option Command
  deriving DecidableEq, Repr

/-- The state of one CORE, and of the host's side of its ports. `STATUS` is a view of it (Machine/Flags.lean), and so is
`S[0..15]` with its four hardwired words (Machine/Ops.lean). -/
structure State where
  /-- `S[4..15]` (R23 to R26): `ctx[i]` is `S[4 + i]`. `S[0..3]` are hardwired and have no storage (R21, log entry 15). -/
  ctx : Vector Word 12
  /-- The keystream buffer `KS[0..15]` (R29). -/
  ks : Words
  /-- The working buffer `X[0..15]` (R30). -/
  x : Words
  /-- The cursor `CUR`, 7 bits (R31). -/
  cur : BitVec 7
  /-- The sequencer `SEQ` (R32). -/
  seq : Seq
  /-- The pending byte `PEND`, 8 bits (R33). Where R39 and R103 give it None it holds a free value (log entry 3). -/
  pend : Byte
  /-- `INITD` (R34). -/
  initd : Bool
  /-- `ERR_ILL` (R35). -/
  errIll : Bool
  /-- `ERR_NOINIT` (R35). -/
  errNoinit : Bool
  /-- The command port: the commands the host has offered and the CORE has not accepted, the standing offer first (R61,
  R100, log entry 5). -/
  port : List Command
  /-- What the outside does at the coming steps, the next step's input first; when it is empty, nothing (log entry 4). -/
  inputs : List HostInput
  /-- The responses given, the first one first (R69, R54, log entry 7). -/
  responses : List Response
  /-- The model's own counter: how many times free values have been drawn, by a reset or by CTRINC (log entry 2). -/
  draws : Nat
  deriving DecidableEq, Repr

/-- Why a step stops with a fault. Every one is about a state that no run from reset reaches (R40), or about a value of a
parameter that this machine does not take. -/
inductive Fault where
  /-- Raised by Machine/Fetch.lean when SEQ holds a value outside R32's table (V2, D26). Safe: the model stops in a state
  no run reaches. -/
  | sequencerOutOfRange
  /-- Raised by XORB when CUR is in 65..127 (V2, D26). Safe: the model stops in a state no run reaches. -/
  | cursorOutOfRange
  /-- Raised by CTRINC at BC = 2^64 - 1 when CTR_WRAP is STOP (V7). Safe: this machine takes WRAP, so it never occurs. -/
  | counterExhausted
  deriving DecidableEq, Repr

/-- Why a step has no meaning. -/
inductive Refusal where
  /-- Raised by an arm of exec whose instruction has no meaning yet. Safe: nothing is proved of that instruction. -/
  | notModelled (mnemonic : String)
  deriving DecidableEq, Repr

/-- What one step of the CORE is to do (R15, R91, R100): run an instruction at a state, settle in a next state without
one, or stop. Made by Machine/Fetch.lean. -/
inductive Selected where
  | run (i : Instr) (s : State)
  | settle (s : State)
  | stop (f : Fault)
  deriving DecidableEq, Repr

/-- The state after a reset that makes draw `n` (R39, R140), with nothing offered, nothing scheduled and nothing answered.
`S[4..15]`, `KS`, `X` and `PEND` hold free values (U3, log entries 1 to 3). DESIGN CHOICE: the values are a function of the
draw's number and the place alone, so two instances at the same draw hold equal leftovers (log entry 20). -/
def State.resetAt (n : Nat) : State where
  ctx := Vector.ofFn fun i => Config.unwritten n (4 + i.val)
  ks := Vector.ofFn fun i => Config.unwritten n (32 + i.val)
  x := Vector.ofFn fun i => Config.unwritten n (16 + i.val)
  cur := 64#7
  seq := .idle
  pend := Config.unwrittenByte n
  initd := false
  errIll := false
  errNoinit := false
  port := []
  inputs := []
  responses := []
  draws := n

/-- The machine right after reset, as a fresh instance starts (R39, R140). -/
def State.reset : State := State.resetAt 0

end Sys2Proof.Machine
end

