-- ==== Sys2Proof/Machine/Flags.lean ====
section
/-! DEFINITION. The flags of the CORE: STATUS and its fields (10_state.md R36), and the codes of the sequencer's phases and
of the responses (R32, R70). The CORE has no condition codes (R38). -/

namespace Sys2Proof.Machine

/-- The two-bit encoding of SEQ.PH (R32). -/
def Phase.code : Phase → BitVec 2
  | .idle => 0b00
  | .round => 0b01
  | .feedfwd => 0b10
  | .ctrinc => 0b11

/-- The phase a two-bit code stands for (R32). -/
def Phase.ofCode (c : BitVec 2) : Phase :=
  if c = 0b00 then .idle else if c = 0b01 then .round else if c = 0b10 then .feedfwd else .ctrinc

/-- The sequencer as its 7-bit register `{PH[1:0], K[4:0]}` (R32, R71). -/
def Seq.word (q : Seq) : BitVec 7 := q.ph.code ++ q.k

/-- The sequencer register with a given 7-bit value. -/
def Seq.ofWord (w : BitVec 7) : Seq := { ph := Phase.ofCode (w.extractLsb' 5 2), k := w.extractLsb' 0 5 }

/-- The two-bit response code (R70). -/
def Rsp.code : Rsp → BitVec 2
  | .ok => 0b00
  | .illegal => 0b01
  | .noinit => 0b10

/-- READY, bit 0 of STATUS: 1 iff SEQ.PH = IDLE (R36). -/
def State.ready (s : State) : Bool := s.seq.ph = .idle

/-- The word STATUS (R36): bits 15:4 are 0, then ERR_NOINIT, ERR_ILL, INIT, READY. Reading it is this function of the
state: it changes nothing and does not wait for READY (R108). -/
def State.status (s : State) : BitVec 16 :=
  (0 : BitVec 12) ++ (BitVec.ofBool s.errNoinit ++ (BitVec.ofBool s.errIll ++
    (BitVec.ofBool s.initd ++ BitVec.ofBool s.ready)))

end Sys2Proof.Machine
end

