-- ==== Sys2Proof/Machine/Operands.lean ====
section
/-! DEFINITION. How bytes become words and words become bytes (20_memory.md R42 to R46), and how INIT splits its counter
(30_encoding.md R66). The CORE has no other operand form: the XORB byte is used as it is. -/

namespace Sys2Proof.Machine

open Sys2Proof

/-- `pack4` of R42: byte 0 is least significant. -/
def pack4 (b0 b1 b2 b3 : Byte) : Word :=
  b0.setWidth 32 ||| b1.setWidth 32 <<< 8 ||| b2.setWidth 32 <<< 16 ||| b3.setWidth 32 <<< 24

/-- The key word that INIT writes into `S[4+i]` (R43). -/
def keyWord (key : Key) (i : Fin 8) : Word :=
  pack4 key[4 * i.val] key[4 * i.val + 1] key[4 * i.val + 2] key[4 * i.val + 3]

/-- The nonce words `N0`, `N1`, `N2` (R44). -/
def nonceWord (nonce : Nonce) (i : Fin 3) : Word :=
  pack4 nonce[4 * i.val] nonce[4 * i.val + 1] nonce[4 * i.val + 2] nonce[4 * i.val + 3]

/-- `C[31:0]` (R24, R66). -/
def ctrLow (c : BitVec 64) : Word := c.extractLsb' 0 32

/-- `C[63:32]` (R25, R66). -/
def ctrHigh (c : BitVec 64) : Word := c.extractLsb' 32 32

/-- The words `S[4..15]` that INIT writes (R101): key, low counter half, nonce word 0 plus high counter half (addition, not
XOR: 90_conflicts.md C2), nonce words 1 and 2. -/
def contextWords (key : Key) (nonce : Nonce) (c : BitVec 64) : Vector Word 12 :=
  #v[keyWord key 0, keyWord key 1, keyWord key 2, keyWord key 3,
     keyWord key 4, keyWord key 5, keyWord key 6, keyWord key 7,
     ctrLow c, nonceWord nonce 0 + ctrHigh c, nonceWord nonce 1, nonceWord nonce 2]

/-- The byte view of the keystream block: `KSByte(j) = KS[j >> 2][8*(j mod 4)+7 : 8*(j mod 4)]` (R45), for `j` in 0..63. -/
def ksByte (ks : Words) (j : Nat) : Byte :=
  (ks[j / 4 % 16]'(Nat.mod_lt _ (by decide))).extractLsb' (8 * (j % 4)) 8

/-- `Ser(KS)` of R46: the 64 bytes of a block in the order they are consumed. -/
def serialise (ks : Words) : List Byte := (List.range 64).map (ksByte ks)

end Sys2Proof.Machine
end

