-- ==== Sys2Proof/Machine/Ops.lean ====
section
/-! DEFINITION. The named operations over the state: reading and writing the word file S with its hardwired words, giving a
response, raising an error, taking in what the outside does, and the reset event. -/

namespace Sys2Proof.Machine

open Sys2Proof

/-- The hardwired words `S[0..3]`: the constant "expand 32-byte k" (R21). -/
def constWord (i : Fin 4) : Word := #v[0x61707865, 0x3320646E, 0x79622D32, 0x6B206574][i]

/-- Reading `S[i]`: the one place where a word of S is read (R20, R21). -/
def State.readS (s : State) (i : Fin 16) : Word :=
  if h : i.val < 4 then constWord ⟨i.val, h⟩ else s.ctx[i.val - 4]

/-- Writing `S[i]`: the one place where a single word of S is written. A write to a hardwired word changes nothing
("No step writes them", R21). -/
def State.writeS (s : State) (i : Fin 16) (v : Word) : State :=
  if h : i.val < 4 then s else { s with ctx := s.ctx.set (i.val - 4) v }

/-- The whole state word file `S[0..15]` (R20). -/
def State.words (s : State) : Words := Vector.ofFn s.readS

/-- The block counter value of a word file: `BC = {S[13], S[12]}` (R28). -/
def counterOf (w : Words) : BitVec 64 := w[13] ++ w[12]

/-- BC of a state (R28, R131). -/
def State.bc (s : State) : BitVec 64 := counterOf s.words

/-- `respond(code, dout)` (R12, R69): one response at the end of the channel. -/
def State.respond (s : State) (code : Rsp) (dout : Byte) : State :=
  { s with responses := s.responses ++ [{ rsp := code, dout := dout }] }

/-- Raising an error, the CORE's only exceptions: the sticky flag and the response, nothing else (R121, R122). There is no
vector, no saved register and no mode, so there is no return either: the CORE stays ready (R126, R127). -/
def State.raise (s : State) : ErrorCause → State
  | .illegalCommand => { s with errIll := true }.respond .illegal 0#8
  | .notInitialised => { s with errNoinit := true }.respond .noinit 0#8

/-- Whether the reset input is asserted at this step (R140). -/
def State.resetAsserted (s : State) : Bool :=
  match s.inputs with
  | [] => false
  | input :: _ => input.reset

/-- The state once this step's input has arrived: a new offer stands behind the earlier ones (R100, log entries 4, 5). -/
def State.receive (s : State) : State :=
  match s.inputs with
  | [] => s
  | input :: later => { s with inputs := later, port := s.port ++ input.offer.toList }

/-- The reset event (R140, R141): every piece of state of R39 goes to its value there. The host's side of the ports stays:
offers not accepted, inputs to come, responses already given (log entry 6). -/
def State.resetEvent (s : State) : State :=
  { State.resetAt (s.draws + 1) with port := s.port, inputs := s.inputs, responses := s.responses }

/-- CTRINC's counter increment (R90): `S[12] <- S[12] + 1`, and the carry test reads the new `S[12]`. -/
def State.advanceCounter (s : State) : State :=
  let s1 := s.writeS 12 (s.readS 12 + 1#32)
  if s1.readS 12 = 0#32 then s1.writeS 13 (s1.readS 13 + 1#32) else s1

end Sys2Proof.Machine
end

