-- ==== Sys2Proof/Machine/Block.lean ====
section
/-! DEFINITION. The block function (spec/40_block_function.md): its primitives, its half-rounds, the meanings of the four
micro-operations, and the atomic view of R92. -/

namespace Sys2Proof.Machine

open Sys2Proof

/-- `rotl32(v, n)` of R80. -/
def rotl32 (v : Word) (n : Nat) : Word := v <<< n ||| v >>> (32 - n)

/-- The four words of a quarter-round. -/
structure Quad where
  a : Word
  b : Word
  c : Word
  d : Word
  deriving DecidableEq, Repr

/-- The quarter-round `QR` of R81: its four lines in order, each reading what the lines before it left. -/
def qr (q : Quad) : Quad :=
  let a1 := q.a + q.b
  let d1 := rotl32 (q.d ^^^ a1) 16
  let c1 := q.c + d1
  let b1 := rotl32 (q.b ^^^ c1) 12
  let a2 := a1 + b1
  let d2 := rotl32 (d1 ^^^ a2) 8
  let c2 := c1 + d2
  let b2 := rotl32 (b1 ^^^ c2) 7
  { a := a2, b := b2, c := c2, d := d2 }

/-- One lane: the index four-tuple of a quarter-round into X (R82). -/
structure Lane where
  a : Fin 16
  b : Fin 16
  c : Fin 16
  d : Fin 16
  deriving DecidableEq, Repr

/-- The table COL of R82. -/
def colLanes : List Lane := [⟨0, 4, 8, 12⟩, ⟨1, 5, 9, 13⟩, ⟨2, 6, 10, 14⟩, ⟨3, 7, 11, 15⟩]

/-- The table DIAG of R82. -/
def diagLanes : List Lane := [⟨0, 5, 10, 15⟩, ⟨1, 6, 11, 12⟩, ⟨2, 7, 8, 13⟩, ⟨3, 4, 9, 14⟩]

/-- The indices a lane names, which it reads and writes. -/
def Lane.indices (l : Lane) : List (Fin 16) := [l.a, l.b, l.c, l.d]

/-- The words of `x` that a lane names. -/
def Lane.read (l : Lane) (x : Words) : Quad := { a := x[l.a], b := x[l.b], c := x[l.c], d := x[l.d] }

/-- `x` with the words that a lane names replaced. -/
def Lane.write (l : Lane) (x : Words) (q : Quad) : Words :=
  (((x.set l.a q.a).set l.b q.b).set l.c q.c).set l.d q.d

/-- One half-round: every lane's quarter-round reads the words the half-round began with, and all lanes write (R83: "in
one step, in parallel"). -/
def halfRound (lanes : List Lane) (x : Words) : Words :=
  lanes.foldl (fun acc l => l.write acc (qr (l.read x))) x

/-- The lanes of one half-round run one after another, each on what the one before left (R83). -/
def serialRound (lanes : List Lane) (x : Words) : Words :=
  lanes.foldl (fun acc l => l.write acc (qr (l.read acc))) x

/-- `DOUBLEROUND` of R88. -/
def doubleRound (x : Words) : Words := halfRound diagLanes (halfRound colLanes x)

/-- `n` double rounds (R88). -/
def doubleRounds : Nat → Words → Words
  | 0, x => x
  | n + 1, x => doubleRound (doubleRounds n x)

/-- X after the half-rounds K = 0 .. n-1: even K is a column round, odd K a diagonal round (R87). -/
def halfRounds : Nat → Words → Words
  | 0, x => x
  | n + 1, x => halfRound (if n % 2 = 0 then colLanes else diagLanes) (halfRounds n x)

/-- The feed-forward: word by word addition modulo 2^32 (R89). -/
def addWords (x y : Words) : Words := Vector.ofFn fun i => x[i] + y[i]

/-- A word file with its counter advanced (R92's `S'`). -/
def incCounter (w : Words) : Words :=
  (w.set 12 (w[12] + 1#32)).set 13 (if w[12] + 1#32 = 0#32 then w[13] + 1#32 else w[13])

/-- The keystream half of `Block(S)` (R92). -/
def blockKs (w : Words) : Words := addWords (doubleRounds 10 w) w

/-- `Block(S) = (KS', S')` (R92). -/
def block (w : Words) : Words × Words := (blockKs w, incCounter w)

/-- COLROUND (R85). The operand `k` is `SEQ.K` (R78, log entry 10). -/
def execColround (k : BitVec 5) (s : State) : Host.Outcome State Fault Refusal :=
  .next { s with x := halfRound colLanes s.x, seq := { s.seq with k := k + 1#5 } }

/-- DIAGROUND (R86). The operand `k` is `SEQ.K` (R78, log entry 10). -/
def execDiaground (k : BitVec 5) (s : State) : Host.Outcome State Fault Refusal :=
  .next { s with
    x := halfRound diagLanes s.x
    seq := if k.toNat < 19 then { s.seq with k := k + 1#5 } else { ph := .feedfwd, k := 0#5 } }

/-- FEEDFWD (R89). -/
def execFeedfwd (s : State) : Host.Outcome State Fault Refusal :=
  .next { s with ks := addWords s.x s.words, seq := { ph := .ctrinc, k := 0#5 } }

/-- The completion of the pending XORB, after `CUR <- 0` (R103), and the return to IDLE (R90). `PEND <- None` leaves a
fresh free value in the register (log entry 3). -/
def State.completeXorb (s : State) : State :=
  { s.respond .ok (s.pend ^^^ ksByte s.ks 0) with
    cur := 1#7
    pend := Config.unwrittenByte (s.draws + 1)
    draws := s.draws + 1
    seq := .idle }

/-- CTRINC under a value of the parameter CTR_WRAP (R90, R103, V7). -/
def ctrincUnder (p : CtrWrap) (s : State) : Host.Outcome State Fault Refusal :=
  if p = .stop ∧ s.bc = BitVec.allOnes 64 then .fault .counterExhausted
  else .next s.advanceCounter.completeXorb

/-- CTRINC (R90), with this machine's CTR_WRAP (log entry 14). -/
def execCtrinc (s : State) : Host.Outcome State Fault Refusal := ctrincUnder Config.ctrWrap s

end Sys2Proof.Machine
end

