-- ==== Sys2Proof/Machine/Commands.lean ====
section
/-! DEFINITION. The two host commands (spec/41_commands.md). Each is the effect of the accepting step on everything but the
command port, from which Machine/Fetch.lean has taken the command. -/

namespace Sys2Proof.Machine

open Sys2Proof

/-- INIT (R101): a new context, no keystream yet, and the response (OK, 0x00). KS is not written. -/
def execInit (key : Key) (nonce : Nonce) (ctr : BitVec 64) (s : State) : Host.Outcome State Fault Refusal :=
  .next ({ s with ctx := contextWords key nonce ctr, cur := 64#7, initd := true }.respond .ok 0#8)

/-- XORB served from the buffer (R102, CUR < 64). -/
def State.serveByte (s : State) (d : Byte) : State :=
  { s.respond .ok (d ^^^ ksByte s.ks s.cur.toNat) with cur := s.cur + 1#7 }

/-- XORB that finds the block used up (R102, CUR = 64): the byte pends, COPY (R84), and the sequencer starts. No response
yet. -/
def State.startBlock (s : State) (d : Byte) : State :=
  { s with pend := d, x := s.words, seq := { ph := .round, k := 0#5 } }

/-- XORB (R102). CUR in 65..127 is unreachable and a fault (V2, log entry 9). -/
def execXorb (d : Byte) (s : State) : Host.Outcome State Fault Refusal :=
  if s.initd = false then .next (s.raise .notInitialised)
  else if s.cur.toNat < 64 then .next (s.serveByte d)
  else if s.cur = 64#7 then .next (s.startBlock d)
  else .fault .cursorOutOfRange

end Sys2Proof.Machine
end

