-- ==== Sys2Proof/Machine/Dispatch.lean ====
section
/-! DEFINITION. One arm per instruction. -/

namespace Sys2Proof.Machine

def exec (i : Instr) (s : State) : Host.Outcome State Fault Refusal :=
  match i with
  | .init key nonce ctr => Sys2Proof.Machine.execInit key nonce ctr s
  | .xorb d => Sys2Proof.Machine.execXorb d s
  | .colround k => Sys2Proof.Machine.execColround k s
  | .diaground k => Sys2Proof.Machine.execDiaground k s
  | .feedfwd => Sys2Proof.Machine.execFeedfwd s
  | .ctrinc => Sys2Proof.Machine.execCtrinc s

end Sys2Proof.Machine
end

