-- ==== Sys2Proof/WellFormed.lean ====
section
/-! DEFINITION. Which instructions have an encoding (10_state.md R32, 30_encoding.md R71). The operand widths of INIT and
XORB are fixed by their types, so no check is left for them (60_exceptions.md R123). -/

namespace Sys2Proof

/-- COLROUND has an even K in 0..18 and DIAGROUND an odd K in 1..19 (R85, R86); every other instruction is well formed. -/
def Instr.wellFormed : Instr → Bool
  | .init _ _ _ => true
  | .xorb _ => true
  | .colround k => k.toNat < 20 && k.toNat % 2 == 0
  | .diaground k => k.toNat < 20 && k.toNat % 2 == 1
  | .feedfwd => true
  | .ctrinc => true

end Sys2Proof
end

