-- ==== Sys2Proof/Decode.lean ====
section
/-! DEFINITION. The decoder (30_encoding.md R62 to R68, R71, R77), total and rejecting by name, and after it the encoder,
written from the same tables. -/

namespace Sys2Proof

/-- The field OP of a command word (R62). -/
def cmdOp (w : BitVec 16) : BitVec 4 := w.extractLsb' 0 4

/-- The field RSV of a command word (R62). -/
def cmdRsv (w : BitVec 16) : BitVec 4 := w.extractLsb' 4 4

/-- The field DATA of a command word (R62). -/
def cmdData (w : BitVec 16) : Byte := w.extractLsb' 8 8

/-- Key bytes of PAYLOAD: `key[i] = PAYLOAD[8i+7 : 8i]` (R65). -/
def payloadKey (p : BitVec 416) : Key := Vector.ofFn fun i => p.extractLsb' (8 * i.val) 8

/-- Nonce bytes of PAYLOAD: `nonce[j] = PAYLOAD[256+8j+7 : 256+8j]` (R65). -/
def payloadNonce (p : BitVec 416) : Nonce := Vector.ofFn fun j => p.extractLsb' (256 + 8 * j.val) 8

/-- The counter operand: `C = PAYLOAD[415:352]`, a value, not bytes (R65, R66). -/
def payloadCtr (p : BitVec 416) : BitVec 64 := p.extractLsb' 352 64

/-- Which illegal case of R68 a command word falls under; read only of a word that is neither INIT nor XORB. -/
def illegalReason (w : BitVec 16) : Reject :=
  if cmdOp w = 0x1#4 then (if cmdRsv w = 0x0#4 then .initDataNotZero else .initReservedNotZero)
  else if cmdOp w = 0x2#4 then .xorbReservedNotZero
  else .illegalOp

/-- `decode(CMD)` of R77. -/
def decodeCommand (c : Command) : Decoded :=
  if c.cmd = 0x0001#16 then
    .instr (.init (payloadKey c.payload) (payloadNonce c.payload) (payloadCtr c.payload))
  else if c.cmd.extractLsb' 0 8 = 0x02#8 then .instr (.xorb (cmdData c.cmd))
  else .rejected (illegalReason c.cmd)

/-- The field `SEQ.K` of a sequencer value (R32). -/
def seqField (w : BitVec 7) : BitVec 5 := w.extractLsb' 0 5

/-- The micro-operation a sequencer value selects: the match and mask columns of R71, with K at most 19 (R32). -/
def decodeSequencer (w : BitVec 7) : Decoded :=
  if w &&& 0x61#7 = 0x20#7 ∧ (seqField w).toNat < 20 then .instr (.colround (seqField w))
  else if w &&& 0x61#7 = 0x21#7 ∧ (seqField w).toNat < 20 then .instr (.diaground (seqField w))
  else if w = 0x40#7 then .instr .feedfwd
  else if w = 0x60#7 then .instr .ctrinc
  else if w = 0x00#7 then .rejected .sequencerIdle
  else .rejected .sequencerOutOfRange

/-- The whole decoder, over both encoded forms. -/
def decode : Encoded → Decoded
  | .command c => decodeCommand c
  | .sequencer w => decodeSequencer w

/-- Bytes as one number, the first byte least significant. -/
def bytesValue : List Byte → Nat
  | [] => 0
  | b :: bs => b.toNat + 256 * bytesValue bs

/-- PAYLOAD of an INIT: key in bits 255:0, nonce in bits 351:256, counter in bits 415:352 (R65). -/
def initPayload (key : Key) (nonce : Nonce) (ctr : BitVec 64) : BitVec 416 :=
  ctr ++ (BitVec.ofNat 96 (bytesValue nonce.toList) ++ BitVec.ofNat 256 (bytesValue key.toList))

/-- The command INIT: `CMD = 0x0001` exactly (R63). -/
def initCommand (key : Key) (nonce : Nonce) (ctr : BitVec 64) : Command :=
  { cmd := 0x0001#16, payload := initPayload key nonce ctr }

/-- The command XORB: `dddddddd00000010` (R64). Its PAYLOAD is ignored (R67); the encoder sends zero.
DESIGN CHOICE, log entry 11. -/
def xorbCommand (d : Byte) : Command := { cmd := d ++ 0x02#8, payload := 0#416 }

/-- The encoder, from the encoding columns of R63, R64 and R71. -/
def encode : Instr → Encoded
  | .init key nonce ctr => .command (initCommand key nonce ctr)
  | .xorb d => .command (xorbCommand d)
  | .colround k => .sequencer (0b01#2 ++ k)
  | .diaground k => .sequencer (0b01#2 ++ k)
  | .feedfwd => .sequencer 0b1000000#7
  | .ctrinc => .sequencer 0b1100000#7

/-- A number, with the bits laid out as spec/opcode_table.json lays them out, as an encoded form: at most one byte is a
value of SEQ (7 bits), anything wider is CMD in bits 15:0 with PAYLOAD from bit 16 up. Log entry 12. -/
def encodedOfTableWord (nbits w : Nat) : Option Encoded :=
  if nbits ≤ 8 then
    if w < 2 ^ 7 then some (.sequencer (BitVec.ofNat 7 w)) else none
  else if w >>> 432 = 0 then
    some (.command { cmd := BitVec.ofNat 16 w, payload := BitVec.ofNat 416 (w / 2 ^ 16) })
  else none

/-- The instruction this decoder reads from a table word, `none` where it rejects. -/
def decodeTableWord (nbits w : Nat) : Option Instr :=
  match encodedOfTableWord nbits w with
  | some e => (decode e).toOption
  | none => none

end Sys2Proof
end

