-- ==== Sys2Proof/Machine/Fetch.lean ====
section
/-! DEFINITION. What the next step of the CORE is (00_scope.md R15; 40_block_function.md R91; 41_commands.md R100;
70_reset_and_hazards.md R140): reset first, then the micro-operation that SEQ selects, and at IDLE the command that stands
at the port. The CORE fetches no instructions from a memory (20_memory.md R58). -/

namespace Sys2Proof.Machine

open Sys2Proof

/-- The accepting step's choice (R100): the standing offer leaves the port and its instruction runs, an illegal one raises
IllegalCommand (R121), and with no offer the CORE waits (R137, log entry 8). -/
def State.selectCommand (s : State) : Selected :=
  match s.port with
  | [] => .settle s
  | c :: later =>
    match decodeCommand c with
    | .instr i => .run i { s with port := later }
    | .rejected _ => .settle ({ s with port := later }.raise .illegalCommand)

/-- The next step, once this step's input has arrived and reset is not asserted: SEQ decides (R91, R100). A value of SEQ
outside R32's table is a fault (V2, log entry 9). -/
def State.selectStep (s : State) : Selected :=
  match decodeSequencer s.seq.word with
  | .instr i => .run i s
  | .rejected .sequencerIdle => s.selectCommand
  | .rejected _ => .stop .sequencerOutOfRange

/-- What the next step is. Reset takes priority over every step (R140). -/
def State.select (s : State) : Selected :=
  if s.resetAsserted then .settle s.receive.resetEvent else s.receive.selectStep

/-- The state with no reset asserted at the next step. -/
def State.releaseReset (s : State) : State :=
  match s.inputs with
  | [] => s
  | input :: later => { s with inputs := { input with reset := false } :: later }

/-- The state whose next step selects the micro-operation of SEQ value `w`. -/
def State.withSequencer (s : State) (w : BitVec 7) : State := { s with seq := Seq.ofWord w }

/-- The state whose next step accepts the command `c`: the sequencer idle, and `c` the standing offer. -/
def State.withOffer (s : State) (c : Command) : State := { s with seq := .idle, port := c :: s.port }

end Sys2Proof.Machine
end

