-- ==== Sys2Proof/Machine/Step.lean ====
section
/-! DEFINITION. One step of the CORE, and how a table word is placed for the next step. -/

namespace Sys2Proof.Machine

open Sys2Proof

/-- One step (R14, R15): the instruction selected runs, or the CORE settles without one, or it stops. -/
def step (s : State) : Host.Outcome State Fault Refusal :=
  match s.select with
  | .run i t => exec i t
  | .settle t => .next t
  | .stop f => .fault f

/-- `s` with a table word where the next step takes its instruction from: a host command as the standing offer of an idle
CORE, a micro-operation as the value of SEQ (log entry 13). A word that is too wide changes nothing. -/
def State.withFetchWord (s : State) (nbits w : Nat) : State :=
  match encodedOfTableWord nbits w with
  | some (.command c) => s.releaseReset.withOffer c
  | some (.sequencer v) => s.releaseReset.withSequencer v
  | none => s

end Sys2Proof.Machine
end

