-- ==== Sys2Proof/Machine/Pseudo.lean ====
section
/-! DEFINITION. The pseudo-instructions APPLY and KSTREAM (30_encoding.md R74, R75) as the commands they expand to, and the
keystream in closed form (41_commands.md R109). Neither is a row of the opcode table. -/

namespace Sys2Proof.Machine

open Sys2Proof

/-- `APPLY b0 b1 ... bN-1`: one XORB for each byte, in index order (R74). -/
def expandApply (bytes : List Byte) : List Command := bytes.map xorbCommand

/-- `KSTREAM n`: `n` copies of `XORB 0x00` (R75). -/
def expandKstream (n : Nat) : List Command := List.replicate n (xorbCommand 0x00)

/-- The data byte of a command that is an XORB. -/
def xorbData (c : Command) : Option Byte :=
  match decodeCommand c with
  | .instr (.xorb d) => some d
  | _ => none

/-- `T⟨v⟩` of R109: a word file with `S[12] = v[31:0]` and `S[13] = v[63:32]`. -/
def withCounter (w : Words) (v : BitVec 64) : Words := (w.set 12 (v.extractLsb' 0 32)).set 13 (v.extractLsb' 32 32)

/-- `ks[n]` of R109, the n-th keystream byte of the context `w`. -/
def keystreamByte (w : Words) (n : Nat) : Byte :=
  ksByte (blockKs (withCounter w (counterOf w + BitVec.ofNat 64 (n / 64)))) (n % 64)

/-- The blocks that `n` bytes take: `ceil(n / 64)` (R109, R153). -/
def blocksFor (n : Nat) : Nat := (n + 63) / 64

/-- CUR after `n` bytes of a context (R109 (2)). -/
def cursorAfter (n : Nat) : Nat := if n = 0 then 64 else (n - 1) % 64 + 1

/-- The bytes of a buffer, each XORed with the keystream byte of its place, from keystream byte `k0` on (R105). -/
def xorStream (w : Words) (k0 : Nat) : List Byte → List Byte
  | [] => []
  | b :: bs => (b ^^^ keystreamByte w k0) :: xorStream w (k0 + 1) bs

/-- Bytes as the OK responses that carry them (R70). -/
def okResponses (bytes : List Byte) : List Response := bytes.map fun b => { rsp := .ok, dout := b }

end Sys2Proof.Machine
end

