-- ==== Sys2Proof/Machine/Asm.lean ====
section
/-! DEFINITION. The assembler syntax (30_encoding.md R72 to R75): a line of text, as its characters, to the commands it
stands for, and the text of a command. Lexical details the spec leaves open: log entry 16. -/

namespace Sys2Proof.Machine

open Sys2Proof

/-- The value of a hex digit, of either case. -/
def hexValue (c : Char) : Option Nat :=
  if '0' ≤ c ∧ c ≤ '9' then some (c.toNat - '0'.toNat)
  else if 'a' ≤ c ∧ c ≤ 'f' then some (c.toNat - 'a'.toNat + 10)
  else if 'A' ≤ c ∧ c ≤ 'F' then some (c.toNat - 'A'.toNat + 10)
  else none

/-- The value of a decimal digit. -/
def decValue (c : Char) : Option Nat :=
  if '0' ≤ c ∧ c ≤ '9' then some (c.toNat - '0'.toNat) else none

/-- A non-empty string of digits as a number, the most significant digit first. -/
def parseDigits (base : Nat) (digit : Char → Option Nat) : Nat → List Char → Option Nat
  | acc, [] => some acc
  | acc, c :: cs =>
    match digit c with
    | some v => parseDigits base digit (acc * base + v) cs
    | none => none

/-- What is left of a text after a fixed beginning. -/
def expect : List Char → List Char → Option (List Char)
  | [], cs => some cs
  | _ :: _, [] => none
  | e :: es, c :: cs => if e = c then expect es cs else none

/-- `n` bytes, two hex digits each, first byte first (R8), and the rest of the text. -/
def parseBytes : Nat → List Char → Option (List Byte × List Char)
  | 0, cs => some ([], cs)
  | n + 1, c1 :: c2 :: cs =>
    match hexValue c1, hexValue c2, parseBytes n cs with
    | some hi, some lo, some (bs, rest) => some (BitVec.ofNat 8 (hi * 16 + lo) :: bs, rest)
    | _, _, _ => none
  | _ + 1, _ => none

/-- The counter operand: `0x` and 1 to 16 hex digits, or decimal digits, below 2^64 (R72). -/
def parseCounter (cs : List Char) : Option (BitVec 64) :=
  match expect "0x".toList cs with
  | some digits =>
    if digits.length = 0 ∨ 16 < digits.length then none
    else (parseDigits 16 hexValue 0 digits).map (BitVec.ofNat 64)
  | none =>
    if cs.length = 0 then none
    else
      match parseDigits 10 decValue 0 cs with
      | some v => if v < 2 ^ 64 then some (BitVec.ofNat 64 v) else none
      | none => none

/-- A list of exactly `n` bytes as a vector. -/
def bytesVector (n : Nat) (bs : List Byte) : Option (Vector Byte n) :=
  if h : bs.toArray.size = n then some ⟨bs.toArray, h⟩ else none

/-- The operands of an INIT line, after `INIT ` (R72). -/
def parseInit (cs : List Char) : Option (List Command) :=
  match expect "key=".toList cs with
  | none => none
  | some cs =>
  match parseBytes 32 cs with
  | none => none
  | some (key, cs) =>
  match expect ", nonce=".toList cs with
  | none => none
  | some cs =>
  match parseBytes 12 cs with
  | none => none
  | some (nonce, cs) =>
  match expect ", ctr=".toList cs with
  | none => none
  | some cs =>
  match bytesVector 32 key, bytesVector 12 nonce, parseCounter cs with
  | some key, some nonce, some ctr => some [initCommand key nonce ctr]
  | _, _, _ => none

/-- A list of byte operands, each written ` 0xHH` (R73, R74). The fuel is the length of the text. -/
def parseByteList : Nat → List Char → Option (List Byte)
  | _, [] => some []
  | 0, _ :: _ => none
  | fuel + 1, cs =>
    match expect " 0x".toList cs with
    | none => none
    | some cs =>
      match parseBytes 1 cs with
      | none => none
      | some (bs, rest) => (parseByteList fuel rest).map (bs ++ ·)

/-- One line of assembler text as the commands it stands for (R72 to R75). -/
def assemble (cs : List Char) : Option (List Command) :=
  match expect "INIT ".toList cs, expect "XORB".toList cs, expect "APPLY".toList cs, expect "KSTREAM ".toList cs with
  | some ops, _, _, _ => parseInit ops
  | _, some ops, _, _ =>
    match parseByteList ops.length ops with
    | some [d] => some [xorbCommand d]
    | _ => none
  | _, _, some ops, _ => (parseByteList ops.length ops).map expandApply
  | _, _, _, some ops =>
    if ops.length = 0 then none else (parseDigits 10 decValue 0 ops).map expandKstream
  | _, _, _, _ => none

/-- The lower-case hex digit of a value below 16. -/
def hexDigit (v : Nat) : Char :=
  if v < 10 then Char.ofNat ('0'.toNat + v) else Char.ofNat ('a'.toNat + (v - 10))

/-- A byte as two hex digits. -/
def printByte (b : Byte) : List Char := [hexDigit (b.toNat / 16), hexDigit (b.toNat % 16)]

/-- A counter as sixteen hex digits. -/
def printCounter (c : BitVec 64) : List Char :=
  "0x".toList ++ ((List.range 16).map fun i => hexDigit (c.toNat / 16 ^ (15 - i) % 16))

/-- The text of INIT (R72), the counter written in hexadecimal. -/
def printInit (key : Key) (nonce : Nonce) (ctr : BitVec 64) : List Char :=
  "INIT key=".toList ++ (key.toList.flatMap printByte ++ (", nonce=".toList ++ (nonce.toList.flatMap printByte ++
    (", ctr=".toList ++ printCounter ctr))))

/-- The text of XORB (R73). -/
def printXorb (d : Byte) : List Char := "XORB 0x".toList ++ printByte d

end Sys2Proof.Machine
end

