-- ==== Sys2Proof/Machine/Instances.lean ====
section
/-! DEFINITION. Several instances (60_exceptions.md R133, R135): each has its own complete state, and they share nothing. -/

namespace Sys2Proof.Machine

/-- The state an instance is in after one step of its own; one that stops stays where it is (log entry 17). -/
def stepOrStay (s : State) : State :=
  match step s with
  | .next t => t
  | .fault _ => s
  | .refused _ => s

/-- One step of instance `i` among several. -/
def stepInstance (instances : List State) (i : Nat) : List State := instances.modify i stepOrStay

/-- Several instances under a schedule: which instance makes each step. -/
def runSchedule (instances : List State) (schedule : List Nat) : List State := schedule.foldl stepInstance instances

/-- One instance by itself, for `n` steps. -/
def runAlone : Nat → State → State
  | 0, s => s
  | n + 1, s => runAlone n (stepOrStay s)

end Sys2Proof.Machine
end

