-- ==== Sys2Proof/Safety.lean ====
section
/-! DEFINITION. What the CORE's rules promise of its states (10_state.md R31, R32, R40, R41): the control invariant
that makes a step free of faults, the data invariant of a block in the making, the end of a run, and what two states of equal
control are. -/

namespace Sys2Proof.Machine

open Sys2Proof

/-- SEQ holds one of the encodings of R32's table. -/
def Seq.legal (q : Seq) : Prop :=
  match q.ph with
  | .idle => q.k = 0#5
  | .round => q.k.toNat < 20
  | .feedfwd => q.k = 0#5
  | .ctrinc => q.k = 0#5

/-- The control invariant of R31, R32 and R41 (2). -/
structure State.Inv (s : State) : Prop where
  /-- "cursor ≤ 64" (R31). -/
  cur_le : s.cur.toNat ≤ 64
  /-- SEQ is one of R32's encodings. -/
  seq_legal : s.seq.legal
  /-- A block is made only with no unconsumed byte buffered (R102). -/
  busy_cur : s.seq.ph ≠ .idle → s.cur = 64#7
  /-- A block is made only of a context (R40, R102). -/
  busy_initd : s.seq.ph ≠ .idle → s.initd = true
  /-- "if INITD = 0 then CUR = 64" (R41 (2)). -/
  uninit_cur : s.initd = false → s.cur = 64#7

/-- The data invariant: what X and KS hold in each phase (R84 to R90), and that the buffered block is the one made from the
state S had before the last CTRINC (R41 (3)). -/
structure State.DataInv (s : State) : Prop where
  /-- Before half-round K, X is S after the half-rounds below K (R87). -/
  round_x : s.seq.ph = .round → s.x = halfRounds s.seq.k.toNat s.words
  /-- Before the feed-forward, X is S after ten double rounds (R88). -/
  feedfwd_x : s.seq.ph = .feedfwd → s.x = doubleRounds 10 s.words
  /-- Before the counter increment, KS is the block made from S (R89, R92). -/
  ctrinc_ks : s.seq.ph = .ctrinc → s.ks = blockKs s.words
  /-- A buffered block is the one made from S with the counter it had before the last CTRINC (R41 (3)). -/
  idle_ks : s.seq.ph = .idle → s.initd = true → s.cur.toNat < 64 → s.ks = blockKs (withCounter s.words (s.bc - 1#64))

/-- A safe state: its step does not stop (R40, R93, R120). -/
def State.Safe (s : State) : Prop := ∃ t, step s = .next t

/-- `n` steps, stopping at the first fault or refusal. -/
def runSteps : Nat → State → Host.Outcome State Fault Refusal
  | 0, s => .next s
  | n + 1, s =>
    match step s with
    | .next t => runSteps n t
    | .fault f => .fault f
    | .refused r => .refused r

/-- What the host sees of the CORE: the responses and STATUS, and nothing else (R37, R113). -/
def State.observe (s : State) : List Response × BitVec 16 := (s.responses, s.status)

/-- The CORE at the end of a run (R113): nothing in progress, and no command offered. DESIGN CHOICE, log entry 21: "the host
offers no further command" is read of the port now; an offer still scheduled in `inputs` is a command not yet offered, of
which R113 says nothing, and does not keep a run from being finished. -/
structure State.Finished (s : State) : Prop where
  idle : s.seq = .idle
  port : s.port = []

/-- What of a command decides the steps it takes: whether it is INIT, an XORB of any byte, or illegal (R154). -/
def commandShape (c : Command) : Option Bool :=
  match decodeCommand c with
  | .instr (.init _ _ _) => some true
  | .instr _ => some false
  | .rejected _ => none

/-- What of a scheduled input decides the steps it takes (R154). -/
def HostInput.shape (i : HostInput) : Bool × Option (Option Bool) := (i.reset, i.offer.map commandShape)

/-- Two states of equal control: they may differ in key, nonce, counter, keystream and data bytes, and in the bytes of the
responses, and in nothing else (R96, R154). -/
structure State.SameControl (s t : State) : Prop where
  cur : s.cur = t.cur
  seq : s.seq = t.seq
  initd : s.initd = t.initd
  errIll : s.errIll = t.errIll
  errNoinit : s.errNoinit = t.errNoinit
  port : s.port.map commandShape = t.port.map commandShape
  inputs : s.inputs.map HostInput.shape = t.inputs.map HostInput.shape
  responses : s.responses.map Response.rsp = t.responses.map Response.rsp

end Sys2Proof.Machine
end

