-- ==== Sys2Proof/Certificates/Slice0/Obligations.lean ====
section
/-! DEFINITION. The statements for the provers, in the order of OBLIGATIONS.json. -/

open Sys2Proof Sys2Proof.Machine

/-! ### Encoding -/

/-- Words written out from the encodings of R62 to R64, R68 and R71 decode to what they stand for. -/
def Obligations.WrittenWordsDecode : Prop :=
  decodeCommand { cmd := 0b0100000100000010, payload := 0 } = .instr (.xorb 0x41) ∧
  decodeCommand { cmd := 0b1111111100000010, payload := 0 } = .instr (.xorb 0xFF) ∧
  decodeCommand { cmd := 0b0000000000000001, payload := 0 } =
    .instr (.init (Vector.replicate 32 0) (Vector.replicate 12 0) 0) ∧
  decodeCommand { cmd := 0x0101, payload := 0 } = .rejected .initDataNotZero ∧
  decodeCommand { cmd := 0x0011, payload := 0 } = .rejected .initReservedNotZero ∧
  decodeCommand { cmd := 0x4112, payload := 0 } = .rejected .xorbReservedNotZero ∧
  decodeCommand { cmd := 0x0003, payload := 0 } = .rejected .illegalOp ∧
  decodeSequencer 0b0101010 = .instr (.colround 10) ∧
  decodeSequencer 0b0110011 = .instr (.diaground 19) ∧
  decodeSequencer 0b1000000 = .instr .feedfwd ∧
  decodeSequencer 0b1100000 = .instr .ctrinc ∧
  decodeSequencer 0b0000000 = .rejected .sequencerIdle

/-- R77: a command word is INIT, XORB of its upper byte, or illegal, whatever PAYLOAD is; 257 of the 65536 words are legal. -/
def Obligations.CommandWordsDecodeByOpcode : Prop :=
  (∀ c : Command,
    ((∃ key nonce ctr, decodeCommand c = .instr (.init key nonce ctr)) ↔ c.cmd = 0x0001) ∧
    (∀ d, decodeCommand c = .instr (.xorb d) ↔ c.cmd.extractLsb' 0 8 = 0x02 ∧ d = c.cmd.extractLsb' 8 8) ∧
    ((∃ r, decodeCommand c = .rejected r) ↔ c.cmd ≠ 0x0001 ∧ c.cmd.extractLsb' 0 8 ≠ 0x02)) ∧
  (∀ payload : BitVec 416,
    ((List.range 65536).filter fun w =>
      (decodeCommand { cmd := BitVec.ofNat 16 w, payload := payload }).toOption.isSome).length = 257)

/-- R65: the operands of INIT are the bytes and the counter at the places of PAYLOAD that the table gives. -/
def Obligations.InitOperandsComeFromPayload : Prop :=
  ∀ payload : BitVec 416, ∃ key nonce ctr,
    decodeCommand { cmd := 0x0001, payload := payload } = .instr (.init key nonce ctr) ∧
    (∀ (i : Fin 32) (b : Nat), b < 8 → key[i].getLsbD b = payload.getLsbD (8 * i.val + b)) ∧
    (∀ (j : Fin 12) (b : Nat), b < 8 → nonce[j].getLsbD b = payload.getLsbD (256 + 8 * j.val + b)) ∧
    (∀ b : Nat, b < 64 → ctr.getLsbD b = payload.getLsbD (352 + b))

/-- R32, R71: each value of SEQ's table selects its micro-operation, and every other value is rejected. -/
def Obligations.SequencerValuesSelectMicroOperations : Prop :=
  ∀ q : Seq, decodeSequencer q.word =
    match q.ph with
    | .idle => if q.k = 0 then .rejected .sequencerIdle else .rejected .sequencerOutOfRange
    | .round =>
      if 20 ≤ q.k.toNat then .rejected .sequencerOutOfRange
      else if q.k.getLsbD 0 then .instr (.diaground q.k) else .instr (.colround q.k)
    | .feedfwd => if q.k = 0 then .instr .feedfwd else .rejected .sequencerOutOfRange
    | .ctrinc => if q.k = 0 then .instr .ctrinc else .rejected .sequencerOutOfRange

/-- Decoding the encoding of a well-formed instruction gives it back, with every operand at every value. -/
def Obligations.EncodingsDecodeBack : Prop :=
  ∀ i : Instr, i.wellFormed = true → decode (encode i) = .instr i

/-- A word that decodes is the encoding of its instruction, but for the PAYLOAD of an XORB, which is ignored (R67); and
what decodes is well formed. -/
def Obligations.DecodedWordsEncodeBack : Prop :=
  ∀ (e : Encoded) (i : Instr), decode e = .instr i →
    i.wellFormed = true ∧
    match e with
    | .sequencer w => encode i = .sequencer w
    | .command c => ∃ c', encode i = .command c' ∧ c'.cmd = c.cmd ∧ (c.cmd = 0x0001 → c'.payload = c.payload)

/-- R72, R73: the text of a command assembles to that command. -/
def Obligations.PrintedCommandsAssemble : Prop :=
  (∀ key nonce ctr, assemble (printInit key nonce ctr) = some [initCommand key nonce ctr]) ∧
  (∀ d, assemble (printXorb d) = some [xorbCommand d])

/-! ### Operands and primitives -/

/-- R42: `pack4` makes the word whose byte 0 is least significant. -/
def Obligations.PackingIsLittleEndian : Prop :=
  ∀ b0 b1 b2 b3 : Byte,
    (pack4 b0 b1 b2 b3).toNat = b0.toNat + b1.toNat * 2 ^ 8 + b2.toNat * 2 ^ 16 + b3.toNat * 2 ^ 24

/-- R45, R46: byte 4w + j of the 64 bytes of a block is bits 8j+7:8j of word w. -/
def Obligations.BlockBytesAreLittleEndian : Prop :=
  ∀ ks : Words, (serialise ks).length = 64 ∧
    ∀ (w : Fin 16) (j : Fin 4), (serialise ks)[4 * w.val + j.val]? = some (ks[w].extractLsb' (8 * j.val) 8)

/-- R80: bit i of `rotl32(v, n)` is bit (i - n) mod 32 of v, for n in 1..31. -/
def Obligations.RotationMovesBits : Prop :=
  ∀ (v : Word) (n i : Nat), 1 ≤ n → n ≤ 31 → i < 32 →
    (rotl32 v n).getLsbD i = v.getLsbD ((i + 32 - n) % 32)

/-- R81: the quarter-round on the rule's own examples. -/
def Obligations.QuarterRoundExamples : Prop :=
  qr ⟨0x01234567, 0x89ABCDEF, 0xFEDCBA98, 0x76543210⟩ = ⟨0x127CDDEE, 0xF4737F6E, 0x5A452C66, 0x3A217533⟩ ∧
  qr ⟨0xFFFFFFFF, 0xFFFFFFFF, 0xFFFFFFFF, 0xFFFFFFFF⟩ = ⟨0xF0000FFD, 0x88790878, 0x0110FDEF, 0x010FFDF0⟩ ∧
  qr ⟨0, 0, 0, 0⟩ = ⟨0, 0, 0, 0⟩

/-- R83: the lanes of each table use every index exactly once, and run in any order, or in parallel, they give the same X. -/
def Obligations.LanesCommute : Prop :=
  ∀ table ∈ [colLanes, diagLanes],
    (table.flatMap Lane.indices).Perm (List.finRange 16) ∧
    ∀ (order : List Lane) (x : Words), order.Perm table → serialRound order x = halfRound table x

/-- R87, R88: the half-rounds K = 0 .. 2n-1 are n double rounds. -/
def Obligations.HalfRoundsMakeDoubleRounds : Prop :=
  ∀ (n : Nat) (x : Words), halfRounds (2 * n) x = doubleRounds n x

/-- R21, R22: `S[0..3]` read as the constants in every state, and they are "expand 32-byte k" packed. That a write to one of
them leaves the state as it is is the model's choice, log entry 15 (R21 says that no step writes them). -/
def Obligations.ConstantsAreHardwired : Prop :=
  (∀ s : State, s.readS 0 = 0x61707865 ∧ s.readS 1 = 0x3320646E ∧ s.readS 2 = 0x79622D32 ∧ s.readS 3 = 0x6B206574) ∧
  (∀ (s : State) (i : Fin 16) (v : Word), i.val < 4 → s.writeS i v = s) ∧
  (∀ s : State, [s.readS 0, s.readS 1, s.readS 2, s.readS 3] =
    [pack4 0x65 0x78 0x70 0x61, pack4 0x6E 0x64 0x20 0x33, pack4 0x32 0x2D 0x62 0x79, pack4 0x74 0x65 0x20 0x6B])

/-- R36: the fields of STATUS. -/
def Obligations.StatusFields : Prop :=
  ∀ s : State,
    (s.status.getLsbD 0 = true ↔ s.seq.ph = .idle) ∧
    s.status.getLsbD 1 = s.initd ∧ s.status.getLsbD 2 = s.errIll ∧ s.status.getLsbD 3 = s.errNoinit ∧
    ∀ b, 4 ≤ b → s.status.getLsbD b = false

/-! ### The step -/

/-- The input of a step: its offer goes behind the offers already standing, and it is used up. Log entries 4 and 5. -/
def Obligations.InputArrives : Prop :=
  (∀ s : State, s.inputs = [] → s.receive = s ∧ s.resetAsserted = false) ∧
  (∀ (s : State) (input : HostInput) (later : List HostInput), s.inputs = input :: later →
    s.receive = { s with inputs := later, port := s.port ++ input.offer.toList } ∧ s.resetAsserted = input.reset)

/-- R91: while SEQ.PH is not IDLE, the step is the micro-operation that SEQ selects. -/
def Obligations.StepRunsTheMicroOperation : Prop :=
  ∀ (s : State) (i : Instr), s.resetAsserted = false → decodeSequencer s.seq.word = .instr i →
    step s = exec i s.receive

/-- R100: at IDLE the step accepts the standing offer, which leaves the port, and runs its instruction. -/
def Obligations.StepRunsTheAcceptedCommand : Prop :=
  ∀ (s : State) (c : Command) (later : List Command) (i : Instr),
    s.resetAsserted = false → s.seq = .idle → s.receive.port = c :: later → decodeCommand c = .instr i →
    step s = exec i { s.receive with port := later }

/-- R121: accepting an illegal command sets ERR_ILL, answers (ILLEGAL, 0x00), and changes nothing else. -/
def Obligations.IllegalCommandIsRefused : Prop :=
  ∀ (s : State) (c : Command) (later : List Command) (r : Reject),
    s.resetAsserted = false → s.seq = .idle → s.receive.port = c :: later → decodeCommand c = .rejected r →
    step s = .next { s.receive with
      port := later
      errIll := true
      responses := s.receive.responses ++ [{ rsp := .illegal, dout := 0x00 }] }

/-- R137: between commands the CORE keeps all its state. That it makes a step at all while idle is the model's choice, log
entry 8 (R91 has no step there). -/
def Obligations.IdleCoreKeepsItsState : Prop :=
  ∀ s : State, s.resetAsserted = false → s.seq = .idle → s.receive.port = [] → step s = .next s.receive

/-- R100, R145: while SEQ.PH is not IDLE no command is accepted; every offer waits, in its place. -/
def Obligations.BusyCoreAcceptsNothing : Prop :=
  ∀ s t : State, s.resetAsserted = false → s.seq.ph ≠ .idle → step s = .next t →
    t.port = s.receive.port ∧ (s.seq.ph ≠ .ctrinc → t.responses = s.responses)

/-- R140, R141: reset takes priority over every step, in every state, sets the state to the values of R39's table, and
answers nothing. What R39 gives None (S[4..15], KS, X, PEND) the statement leaves open. What stays of the host's side (port,
inputs) is the model's choice, log entry 6. -/
def Obligations.ResetSetsTheState : Prop :=
  ∀ s : State, s.resetAsserted = true → ∃ t, step s = .next t ∧
    t.seq = .idle ∧ t.cur = 64 ∧ t.initd = false ∧ t.errIll = false ∧ t.errNoinit = false ∧
    (∀ i : Fin 4, t.readS (i.castLE (by decide)) = constWord i) ∧
    t.status = 0x0001 ∧ t.responses = s.responses ∧ t.port = s.receive.port ∧ t.inputs = s.receive.inputs

/-- R39: the values a fresh instance starts with, where the rule gives one. -/
def Obligations.FreshInstanceState : Prop :=
  State.reset.readS 0 = 0x61707865 ∧ State.reset.readS 1 = 0x3320646E ∧
  State.reset.readS 2 = 0x79622D32 ∧ State.reset.readS 3 = 0x6B206574 ∧
  State.reset.cur = 64 ∧ State.reset.seq.word = 0x00 ∧
  State.reset.initd = false ∧ State.reset.errIll = false ∧ State.reset.errNoinit = false ∧
  State.reset.status = 0x0001

/-! ### INIT -/

/-- R101, R43, R44: INIT completes in every state; byte j of key word i is key byte 4i + j, and so for the nonce words;
the counter's halves go to S[12] and, added to nonce word 0, to S[13]; the rest is unchanged. -/
def Obligations.InitBuildsTheContext : Prop :=
  ∀ (key : Key) (nonce : Nonce) (ctr : BitVec 64) (s : State), ∃ t,
    exec (.init key nonce ctr) s = .next t ∧
    (∀ (i : Fin 8) (j : Fin 4),
      (t.readS ⟨4 + i.val, by omega⟩).extractLsb' (8 * j.val) 8 = key[4 * i.val + j.val]'(by omega)) ∧
    t.readS 12 = ctr.extractLsb' 0 32 ∧
    t.readS 13 = pack4 nonce[0] nonce[1] nonce[2] nonce[3] + ctr.extractLsb' 32 32 ∧
    (∀ j : Fin 4, (t.readS 14).extractLsb' (8 * j.val) 8 = nonce[4 + j.val]'(by omega)) ∧
    (∀ j : Fin 4, (t.readS 15).extractLsb' (8 * j.val) 8 = nonce[8 + j.val]'(by omega)) ∧
    t = { s with ctx := t.ctx, cur := 64, initd := true, responses := s.responses ++ [{ rsp := .ok, dout := 0x00 }] }

/-- R28: right after INIT, BC is the counter plus nonce word 0 in the high half, modulo 2^64. -/
def Obligations.InitCounterIsShiftedByNonce : Prop :=
  ∀ (key : Key) (nonce : Nonce) (ctr : BitVec 64) (s t : State), exec (.init key nonce ctr) s = .next t →
    t.bc = ctr + (pack4 nonce[0] nonce[1] nonce[2] nonce[3]).setWidth 64 <<< 32

/-- R53: two INITs with the same payload leave what one leaves, but for the second response. -/
def Obligations.InitIsIdempotent : Prop :=
  ∀ (key : Key) (nonce : Nonce) (ctr : BitVec 64) (s t u : State),
    exec (.init key nonce ctr) s = .next t → exec (.init key nonce ctr) t = .next u →
    u = { t with responses := t.responses ++ [{ rsp := .ok, dout := 0x00 }] }

/-- R149: two (nonce, counter) pairs that give the same BC, with the same nonce words 1 and 2, give the same state. -/
def Obligations.CollidingOperandsGiveOneContext : Prop :=
  ∀ (key : Key) (nonce nonce' : Nonce) (ctr ctr' : BitVec 64) (s : State),
    ctr + (nonceWord nonce 0).setWidth 64 <<< 32 = ctr' + (nonceWord nonce' 0).setWidth 64 <<< 32 →
    nonceWord nonce 1 = nonceWord nonce' 1 → nonceWord nonce 2 = nonceWord nonce' 2 →
    exec (.init key nonce ctr) s = exec (.init key nonce' ctr') s

/-! ### XORB -/

/-- R102 (CUR < 64) with R45: the next byte of the buffer is used, the cursor advances, nothing else changes. -/
def Obligations.XorbServesTheBufferedByte : Prop :=
  ∀ (d : Byte) (s : State) (w : Fin 16) (j : Fin 4), s.initd = true → s.cur.toNat = 4 * w.val + j.val →
    ∃ t, exec (.xorb d) s = .next t ∧ t.cur.toNat = s.cur.toNat + 1 ∧
      t = { s with
        cur := t.cur
        responses := s.responses ++ [{ rsp := .ok, dout := d ^^^ s.ks[w].extractLsb' (8 * j.val) 8 }] }

/-- R102 (CUR = 64), R84: the byte pends, X is a copy of S, the sequencer starts, and nothing is answered yet. -/
def Obligations.XorbStartsABlock : Prop :=
  ∀ (d : Byte) (s : State), s.initd = true → s.cur = 64 →
    ∃ t, exec (.xorb d) s = .next t ∧ t.seq.word = 0x20 ∧ (∀ i : Fin 16, t.x[i] = s.readS i) ∧
      t = { s with pend := d, x := t.x, seq := t.seq }

/-- R122: XORB before any INIT sets ERR_NOINIT, answers (NOINIT, 0x00), and changes nothing else. -/
def Obligations.XorbWithoutContextIsRefused : Prop :=
  ∀ (d : Byte) (s : State), s.initd = false →
    exec (.xorb d) s = .next { s with
      errNoinit := true
      responses := s.responses ++ [{ rsp := .noinit, dout := 0x00 }] }

/-- V2: XORB stops, by name, on a value of CUR in 65..127. -/
def Obligations.XorbStopsOnUnreachableCursor : Prop :=
  ∀ (d : Byte) (s : State), s.initd = true → 64 < s.cur.toNat → exec (.xorb d) s = .fault .cursorOutOfRange

/-! ### The block function -/

/-- R85: COLROUND puts each column through the quarter-round, advances K, and changes nothing else. That the new K is taken
from the operand `k`, whether or not it is SEQ.K, is the model's choice, log entry 10; a step gives it SEQ.K. -/
def Obligations.ColroundMixesTheColumns : Prop :=
  ∀ (k : BitVec 5) (s : State), ∃ t, exec (.colround k) s = .next t ∧
    (∀ c : Fin 4,
      Quad.mk (t.x[c.val]) (t.x[c.val + 4]) (t.x[c.val + 8]) (t.x[c.val + 12]) =
        qr ⟨s.x[c.val], s.x[c.val + 4], s.x[c.val + 8], s.x[c.val + 12]⟩) ∧
    t = { s with x := t.x, seq := { s.seq with k := k + 1#5 } }

/-- R86: DIAGROUND puts each diagonal through the quarter-round, advances K below 19 and leaves ROUND at 19, and changes
nothing else. That the operand `k` decides, whether or not it is SEQ.K or has an encoding, is the model's choice, log entry
10; a step gives it SEQ.K. -/
def Obligations.DiagroundMixesTheDiagonals : Prop :=
  ∀ (k : BitVec 5) (s : State), ∃ t, exec (.diaground k) s = .next t ∧
    Quad.mk t.x[0] t.x[5] t.x[10] t.x[15] = qr ⟨s.x[0], s.x[5], s.x[10], s.x[15]⟩ ∧
    Quad.mk t.x[1] t.x[6] t.x[11] t.x[12] = qr ⟨s.x[1], s.x[6], s.x[11], s.x[12]⟩ ∧
    Quad.mk t.x[2] t.x[7] t.x[8] t.x[13] = qr ⟨s.x[2], s.x[7], s.x[8], s.x[13]⟩ ∧
    Quad.mk t.x[3] t.x[4] t.x[9] t.x[14] = qr ⟨s.x[3], s.x[4], s.x[9], s.x[14]⟩ ∧
    (k.toNat < 19 → t.seq = { s.seq with k := k + 1#5 }) ∧ (19 ≤ k.toNat → t.seq.word = 0x40) ∧
    t = { s with x := t.x, seq := t.seq }

/-- R89: FEEDFWD adds S to X word by word into KS, moves to CTRINC, and changes nothing else. -/
def Obligations.FeedfwdWritesTheKeystream : Prop :=
  ∀ s : State, ∃ t, exec .feedfwd s = .next t ∧ (∀ i : Fin 16, t.ks[i] = s.x[i] + s.readS i) ∧ t.seq.word = 0x60 ∧
    t = { s with ks := t.ks, seq := t.seq }

/-- R90, R103: CTRINC completes in every state: it adds one to S[12] and its carry to S[13], answers the pending byte with
byte 0 of the block, leaves CUR at 1 and SEQ idle, and changes nothing else. Of PEND (None in R103) and of the model's own
counter of draws it says nothing: log entries 2 and 3. -/
def Obligations.CtrincCompletesThePendingXorb : Prop :=
  ∀ s : State, ∃ t, exec .ctrinc s = .next t ∧
    t.readS 12 = s.readS 12 + 1#32 ∧
    t.readS 13 = (if s.readS 12 = 0xFFFFFFFF then s.readS 13 + 1#32 else s.readS 13) ∧
    (∀ i : Fin 16, i ≠ 12 → i ≠ 13 → t.readS i = s.readS i) ∧
    t = { s with
      ctx := t.ctx
      cur := 1
      pend := t.pend
      draws := t.draws
      seq := .idle
      responses := s.responses ++ [{ rsp := .ok, dout := s.pend ^^^ s.ks[0].extractLsb' 0 8 }] }

/-- R28, R90, R131: CTRINC advances BC by one modulo 2^64. -/
def Obligations.CtrincAdvancesTheBlockCounter : Prop :=
  ∀ s t : State, exec .ctrinc s = .next t → t.bc = s.bc + 1#64

/-- R33: without reset, a step of a block keeps PEND until CTRINC, and the CTRINC step answers with the byte held there. -/
def Obligations.PendingByteIsHeldUntilAnswered : Prop :=
  ∀ s t : State, s.resetAsserted = false → s.seq.ph ≠ .idle → step s = .next t →
    if s.seq.ph = .ctrinc then
      t.responses = s.responses ++ [{ rsp := .ok, dout := s.pend ^^^ s.ks[0].extractLsb' 0 8 }]
    else t.pend = s.pend

/-- V7: CTR_WRAP = STOP faults at BC = 2^64 - 1 and is otherwise WRAP, which never does; this machine takes WRAP. -/
def Obligations.CounterWrapParameter : Prop :=
  (∀ s : State, exec .ctrinc s = ctrincUnder .wrap s) ∧
  (∀ s : State, s.bc.toNat < 2 ^ 64 - 1 → ctrincUnder .stop s = ctrincUnder .wrap s) ∧
  (∀ s : State, s.bc.toNat = 2 ^ 64 - 1 →
    ctrincUnder .stop s = .fault .counterExhausted ∧ ∃ t, ctrincUnder .wrap s = .next t ∧ t.bc = 0#64)

/-- R94: a block writes no word of S but the counter's two. -/
def Obligations.BlockKeepsKeyAndNonce : Prop :=
  ∀ w : Words, (∀ i : Fin 16, i ≠ 12 → i ≠ 13 → (block w).2[i] = w[i]) ∧ counterOf (block w).2 = counterOf w + 1#64

/-! ### Rules about every instruction and every step -/

/-- R104: what each instruction may change, and what it leaves. -/
def Obligations.InstructionsKeepTheirFrame : Prop :=
  ∀ (i : Instr) (s t : State), exec i s = .next t →
    t.port = s.port ∧ t.inputs = s.inputs ∧ t.errIll = s.errIll ∧ (i ≠ .ctrinc → t.draws = s.draws) ∧
    match i with
    | .init _ _ _ =>
      t.ks = s.ks ∧ t.x = s.x ∧ t.seq = s.seq ∧ t.pend = s.pend ∧ t.errNoinit = s.errNoinit
    | .xorb _ =>
      t.ctx = s.ctx ∧ t.ks = s.ks ∧ t.initd = s.initd ∧
      ((t.errNoinit = s.errNoinit ∧ t.x = s.x ∧ t.seq = s.seq ∧ t.pend = s.pend) ∨
       (t.errNoinit = s.errNoinit ∧ t.cur = s.cur ∧ t.responses = s.responses) ∨
       (t.cur = s.cur ∧ t.x = s.x ∧ t.seq = s.seq ∧ t.pend = s.pend))
    | .colround _ | .diaground _ =>
      t.ctx = s.ctx ∧ t.ks = s.ks ∧ t.cur = s.cur ∧ t.pend = s.pend ∧ t.initd = s.initd ∧
      t.errNoinit = s.errNoinit ∧ t.responses = s.responses
    | .feedfwd =>
      t.ctx = s.ctx ∧ t.x = s.x ∧ t.cur = s.cur ∧ t.pend = s.pend ∧ t.initd = s.initd ∧
      t.errNoinit = s.errNoinit ∧ t.responses = s.responses
    | .ctrinc =>
      t.ks = s.ks ∧ t.x = s.x ∧ t.initd = s.initd ∧ t.errNoinit = s.errNoinit ∧
      ∀ j : Fin 16, j ≠ 12 → j ≠ 13 → t.readS j = s.readS j

/-- R104, R70: a step appends at most one response, and an error response carries 0x00; no code is 0b11. -/
def Obligations.StepsAnswerAtMostOnce : Prop :=
  ∀ s t : State, step s = .next t →
    t.responses = s.responses ∨
    ∃ r, t.responses = s.responses ++ [r] ∧ r.rsp.code ≠ 0b11 ∧ (r.rsp ≠ .ok → r.dout = 0x00)

/-- R35, R127: without reset a set error flag stays set, and the flags change nothing of what an instruction does. -/
def Obligations.ErrorFlagsAreSticky : Prop :=
  (∀ s t : State, s.resetAsserted = false → step s = .next t →
    (s.errIll = true → t.errIll = true) ∧ (s.errNoinit = true → t.errNoinit = true)) ∧
  (∀ (i : Instr) (s t : State) (a b : Bool), exec i s = .next t →
    ∃ u, exec i { s with errIll := a, errNoinit := b } = .next u ∧ u = { t with errIll := u.errIll, errNoinit := u.errNoinit })

/-- R41 (4), R23, R26: without reset, only the acceptance of an INIT changes a word of S other than the counter's two. -/
def Obligations.ContextChangesOnlyAtInit : Prop :=
  ∀ s t : State, s.resetAsserted = false → step s = .next t →
    (∀ c later, s.seq = .idle → s.receive.port = c :: later → c.cmd ≠ 0x0001) →
    ∀ i : Fin 16, i ≠ 12 → i ≠ 13 → t.readS i = s.readS i

/-- R41 (5), R131: without reset and without an INIT, BC advances by one at CTRINC and at no other step. -/
def Obligations.BlockCounterCountsBlocks : Prop :=
  ∀ s t : State, s.resetAsserted = false → step s = .next t →
    (∀ c later, s.seq = .idle → s.receive.port = c :: later → c.cmd ≠ 0x0001) →
    t.bc = if s.seq.ph = .ctrinc then s.bc + 1#64 else s.bc

/-! ### Invariants -/

/-- The control invariant holds of a fresh instance, and so does the data invariant. -/
def Obligations.FreshInstanceMeetsInvariants : Prop := State.reset.Inv ∧ State.reset.DataInv

/-- R31, R32, R41 (2): every step keeps the control invariant. -/
def Obligations.StepKeepsControlInvariant : Prop :=
  ∀ s t : State, s.Inv → step s = .next t → t.Inv

/-- R40, R93, R120: a state that meets the control invariant has a next state: no step stops. -/
def Obligations.InvariantStatesAreSafe : Prop := ∀ s : State, s.Inv → s.Safe

/-- R41 (3), R84 to R90: every step keeps what X and KS hold: the half-rounds done so far, and the block made from the
state S had before the last CTRINC. -/
def Obligations.StepKeepsBlockData : Prop :=
  ∀ s t : State, s.Inv → s.DataInv → step s = .next t → t.DataInv

/-- R92, R153: an XORB that starts a block takes 1 + 22 steps, in which nothing is answered and nothing accepted until the
last, and leaves KS and S as `Block(S)`, the byte answered with byte 0 of the block. -/
def Obligations.BlockStepsMeetTheAtomicView : Prop :=
  ∀ (s : State) (c : Command) (d : Byte) (later : List Command),
    s.seq = .idle → s.initd = true → s.cur = 64 → s.port = c :: later → decodeCommand c = .instr (.xorb d) →
    (∀ input ∈ s.inputs.take 23, input.reset = false) →
    (∀ n, 1 ≤ n → n ≤ 22 → ∃ t, runSteps n s = .next t ∧ t.ready = false ∧ t.responses = s.responses) ∧
    ∃ t, runSteps 23 s = .next t ∧
      t.ks = (block s.words).1 ∧ t.words = (block s.words).2 ∧ t.cur = 1 ∧ t.seq = .idle ∧
      t.initd = true ∧ t.errIll = s.errIll ∧ t.errNoinit = s.errNoinit ∧
      t.responses = s.responses ++ [{ rsp := .ok, dout := d ^^^ ksByte (block s.words).1 0 }] ∧
      t.port = later ++ (s.inputs.take 23).flatMap (fun input => input.offer.toList) ∧ t.inputs = s.inputs.drop 23

/-- R69: an accepted command gets exactly one response, within 23 steps, if no reset comes. -/
def Obligations.EveryCommandIsAnswered : Prop :=
  ∀ (s : State) (c : Command) (later : List Command),
    s.Inv → s.seq = .idle → s.inputs = [] → s.port = c :: later →
    ∃ n t r, n ≤ 23 ∧ runSteps n s = .next t ∧ t.seq = .idle ∧ t.port = later ∧ t.responses = s.responses ++ [r]

/-- R109, R153: after an INIT, whatever commands but INIT are offered, the n-th XORB answers with keystream byte n, and
CUR, BC and the number of steps are as the closed form gives them. -/
def Obligations.KeystreamClosedForm : Prop :=
  ∀ (s : State) (commands : List Command) (data : List Byte),
    s.seq = .idle → s.initd = true → s.cur = 64 → s.inputs = [] → s.port = commands →
    (∀ c ∈ commands, c.cmd ≠ 0x0001) → data = commands.filterMap xorbData →
    ∃ t answers, runSteps (commands.length + 22 * blocksFor data.length) s = .next t ∧ t.Finished ∧
      t.responses = s.responses ++ answers ∧ answers.length = commands.length ∧
      answers.filter (fun r => r.rsp = .ok) = okResponses (xorStream s.words 0 data) ∧
      t.cur.toNat = cursorAfter data.length ∧
      t.bc = s.bc + BitVec.ofNat 64 (blocksFor data.length)

/-- R107: KSTREAM n after an INIT returns the first n keystream bytes. -/
def Obligations.KstreamReturnsTheKeystream : Prop :=
  ∀ (s : State) (n : Nat), s.seq = .idle → s.initd = true → s.cur = 64 → s.inputs = [] → s.port = expandKstream n →
    ∃ m t, runSteps m s = .next t ∧ t.Finished ∧
      t.responses = s.responses ++ okResponses ((List.range n).map (keystreamByte s.words))

/-- R110: encryption and then decryption with the same key, nonce and counter give the bytes back. -/
def Obligations.RoundTripGivesTheBytesBack : Prop :=
  ∀ (s : State) (key : Key) (nonce : Nonce) (ctr : BitVec 64) (bytes : List Byte),
    s.Inv → s.Finished → s.inputs = [] →
    ∃ n t cipher, runSteps n { s with port := initCommand key nonce ctr :: expandApply bytes } = .next t ∧ t.Finished ∧
      cipher = xorStream (State.words { s with ctx := contextWords key nonce ctr }) 0 bytes ∧
      t.responses = s.responses ++ okResponses (0x00 :: cipher) ∧
      ∃ m u, runSteps m { t with port := initCommand key nonce ctr :: expandApply cipher } = .next u ∧ u.Finished ∧
        u.responses = t.responses ++ okResponses (0x00 :: bytes)

/-- R111: two buffers one after the other leave the state, answers included, that their concatenation leaves. -/
def Obligations.SplitBuffersAreOneStream : Prop :=
  ∀ (s : State) (first second : List Byte), s.Inv → s.Finished → s.inputs = [] →
    ∃ n t m u, runSteps n { s with port := expandApply first } = .next t ∧ t.Finished ∧
      runSteps m { t with port := expandApply second } = .next u ∧ u.Finished ∧
      runSteps (n + m) { s with port := expandApply (first ++ second) } = .next u

/-- R101 (1) and (2), R59, R37: after an INIT the host sees nothing of the context, the keystream block, the working
buffer or the cursor from before it, whatever it offers next. -/
def Obligations.InitHidesTheOldContext : Prop :=
  ∀ (s s' : State) (key : Key) (nonce : Nonce) (ctr : BitVec 64) (commands : List Command) (n : Nat) (t : State),
    s.Finished → s'.Finished → s.inputs = [] → s'.inputs = [] →
    s.errIll = s'.errIll → s.errNoinit = s'.errNoinit → s.responses = s'.responses →
    runSteps (n + 1) { s with port := initCommand key nonce ctr :: commands } = .next t →
    ∃ t', runSteps (n + 1) { s' with port := initCommand key nonce ctr :: commands } = .next t' ∧ t.observe = t'.observe

/-- R96, R154: states of equal control, whatever their key, nonce, counter, keystream and data, step alike: to states of
equal control, or to the same stop. -/
def Obligations.ControlIgnoresSecrets : Prop :=
  ∀ s s' : State, s.SameControl s' →
    (∀ t, step s = .next t → ∃ t', step s' = .next t' ∧ t.SameControl t') ∧
    (∀ f, step s = .fault f → step s' = .fault f)

/-- R133, R135: under any schedule of steps, each instance goes where it goes alone. The schedule, and that an instance that
stops stays where it is, are the model's choice, log entry 17. -/
def Obligations.InstancesShareNothing : Prop :=
  ∀ (instances : List State) (schedule : List Nat) (j : Nat) (s : State), instances[j]? = some s →
    (runSchedule instances schedule)[j]? = some (runAlone (schedule.count j) s)
end

