-- ==== Sys2Proof/Laws/State.lean ====
section
/-! SUPPORT. One lemma for each field of the state after each named operation, so that no later proof unfolds a record
update. What an operation does to the word file is in Laws/Ops.lean. -/

namespace Sys2Proof.Machine

open Sys2Proof

section respond
variable (s : State) (c : Rsp) (d : Byte)
@[simp] theorem respond_ctx : (s.respond c d).ctx = s.ctx := rfl
@[simp] theorem respond_ks : (s.respond c d).ks = s.ks := rfl
@[simp] theorem respond_x : (s.respond c d).x = s.x := rfl
@[simp] theorem respond_cur : (s.respond c d).cur = s.cur := rfl
@[simp] theorem respond_seq : (s.respond c d).seq = s.seq := rfl
@[simp] theorem respond_pend : (s.respond c d).pend = s.pend := rfl
@[simp] theorem respond_initd : (s.respond c d).initd = s.initd := rfl
@[simp] theorem respond_errIll : (s.respond c d).errIll = s.errIll := rfl
@[simp] theorem respond_errNoinit : (s.respond c d).errNoinit = s.errNoinit := rfl
@[simp] theorem respond_port : (s.respond c d).port = s.port := rfl
@[simp] theorem respond_inputs : (s.respond c d).inputs = s.inputs := rfl
@[simp] theorem respond_responses : (s.respond c d).responses = s.responses ++ [{ rsp := c, dout := d }] := rfl
@[simp] theorem respond_draws : (s.respond c d).draws = s.draws := rfl
end respond

section serveByte
variable (s : State) (d : Byte)
@[simp] theorem serveByte_ctx : (s.serveByte d).ctx = s.ctx := rfl
@[simp] theorem serveByte_ks : (s.serveByte d).ks = s.ks := rfl
@[simp] theorem serveByte_x : (s.serveByte d).x = s.x := rfl
@[simp] theorem serveByte_cur : (s.serveByte d).cur = s.cur + 1#7 := rfl
@[simp] theorem serveByte_seq : (s.serveByte d).seq = s.seq := rfl
@[simp] theorem serveByte_pend : (s.serveByte d).pend = s.pend := rfl
@[simp] theorem serveByte_initd : (s.serveByte d).initd = s.initd := rfl
@[simp] theorem serveByte_errIll : (s.serveByte d).errIll = s.errIll := rfl
@[simp] theorem serveByte_errNoinit : (s.serveByte d).errNoinit = s.errNoinit := rfl
@[simp] theorem serveByte_port : (s.serveByte d).port = s.port := rfl
@[simp] theorem serveByte_inputs : (s.serveByte d).inputs = s.inputs := rfl
@[simp] theorem serveByte_responses : (s.serveByte d).responses = s.responses ++ [{ rsp := .ok, dout := d ^^^ ksByte s.ks s.cur.toNat }] := rfl
@[simp] theorem serveByte_draws : (s.serveByte d).draws = s.draws := rfl
end serveByte

section startBlock
variable (s : State) (d : Byte)
@[simp] theorem startBlock_ctx : (s.startBlock d).ctx = s.ctx := by simp only [State.startBlock]
@[simp] theorem startBlock_ks : (s.startBlock d).ks = s.ks := by simp only [State.startBlock]
@[simp] theorem startBlock_x : (s.startBlock d).x = s.words := by simp only [State.startBlock]
@[simp] theorem startBlock_cur : (s.startBlock d).cur = s.cur := by simp only [State.startBlock]
@[simp] theorem startBlock_seq : (s.startBlock d).seq = { ph := .round, k := 0#5 } := by simp only [State.startBlock]
@[simp] theorem startBlock_pend : (s.startBlock d).pend = d := by simp only [State.startBlock]
@[simp] theorem startBlock_initd : (s.startBlock d).initd = s.initd := by simp only [State.startBlock]
@[simp] theorem startBlock_errIll : (s.startBlock d).errIll = s.errIll := by simp only [State.startBlock]
@[simp] theorem startBlock_errNoinit : (s.startBlock d).errNoinit = s.errNoinit := by simp only [State.startBlock]
@[simp] theorem startBlock_port : (s.startBlock d).port = s.port := by simp only [State.startBlock]
@[simp] theorem startBlock_inputs : (s.startBlock d).inputs = s.inputs := by simp only [State.startBlock]
@[simp] theorem startBlock_responses : (s.startBlock d).responses = s.responses := by simp only [State.startBlock]
@[simp] theorem startBlock_draws : (s.startBlock d).draws = s.draws := by simp only [State.startBlock]
end startBlock

section completeXorb
variable (s : State)
@[simp] theorem completeXorb_ctx : s.completeXorb.ctx = s.ctx := rfl
@[simp] theorem completeXorb_ks : s.completeXorb.ks = s.ks := rfl
@[simp] theorem completeXorb_x : s.completeXorb.x = s.x := rfl
@[simp] theorem completeXorb_cur : s.completeXorb.cur = 1#7 := rfl
@[simp] theorem completeXorb_seq : s.completeXorb.seq = .idle := rfl
@[simp] theorem completeXorb_pend : s.completeXorb.pend = Config.unwrittenByte (s.draws + 1) := rfl
@[simp] theorem completeXorb_initd : s.completeXorb.initd = s.initd := rfl
@[simp] theorem completeXorb_errIll : s.completeXorb.errIll = s.errIll := rfl
@[simp] theorem completeXorb_errNoinit : s.completeXorb.errNoinit = s.errNoinit := rfl
@[simp] theorem completeXorb_port : s.completeXorb.port = s.port := rfl
@[simp] theorem completeXorb_inputs : s.completeXorb.inputs = s.inputs := rfl
@[simp] theorem completeXorb_responses : s.completeXorb.responses = s.responses ++ [{ rsp := .ok, dout := s.pend ^^^ ksByte s.ks 0 }] := rfl
@[simp] theorem completeXorb_draws : s.completeXorb.draws = s.draws + 1 := rfl
end completeXorb

section resetEvent
variable (s : State)
@[simp] theorem resetEvent_cur : s.resetEvent.cur = 64#7 := rfl
@[simp] theorem resetEvent_seq : s.resetEvent.seq = .idle := rfl
@[simp] theorem resetEvent_pend : s.resetEvent.pend = Config.unwrittenByte (s.draws + 1) := rfl
@[simp] theorem resetEvent_initd : s.resetEvent.initd = false := rfl
@[simp] theorem resetEvent_errIll : s.resetEvent.errIll = false := rfl
@[simp] theorem resetEvent_errNoinit : s.resetEvent.errNoinit = false := rfl
@[simp] theorem resetEvent_port : s.resetEvent.port = s.port := rfl
@[simp] theorem resetEvent_inputs : s.resetEvent.inputs = s.inputs := rfl
@[simp] theorem resetEvent_responses : s.resetEvent.responses = s.responses := rfl
@[simp] theorem resetEvent_draws : s.resetEvent.draws = s.draws + 1 := rfl
end resetEvent

section releaseReset
variable (s : State)
@[simp] theorem releaseReset_ctx : s.releaseReset.ctx = s.ctx := by
  unfold State.releaseReset; split <;> rfl
@[simp] theorem releaseReset_ks : s.releaseReset.ks = s.ks := by
  unfold State.releaseReset; split <;> rfl
@[simp] theorem releaseReset_x : s.releaseReset.x = s.x := by
  unfold State.releaseReset; split <;> rfl
@[simp] theorem releaseReset_cur : s.releaseReset.cur = s.cur := by
  unfold State.releaseReset; split <;> rfl
@[simp] theorem releaseReset_seq : s.releaseReset.seq = s.seq := by
  unfold State.releaseReset; split <;> rfl
@[simp] theorem releaseReset_pend : s.releaseReset.pend = s.pend := by
  unfold State.releaseReset; split <;> rfl
@[simp] theorem releaseReset_initd : s.releaseReset.initd = s.initd := by
  unfold State.releaseReset; split <;> rfl
@[simp] theorem releaseReset_errIll : s.releaseReset.errIll = s.errIll := by
  unfold State.releaseReset; split <;> rfl
@[simp] theorem releaseReset_errNoinit : s.releaseReset.errNoinit = s.errNoinit := by
  unfold State.releaseReset; split <;> rfl
@[simp] theorem releaseReset_port : s.releaseReset.port = s.port := by
  unfold State.releaseReset; split <;> rfl
@[simp] theorem releaseReset_responses : s.releaseReset.responses = s.responses := by
  unfold State.releaseReset; split <;> rfl
@[simp] theorem releaseReset_draws : s.releaseReset.draws = s.draws := by
  unfold State.releaseReset; split <;> rfl
end releaseReset

section withOffer
variable (s : State) (c : Command)
@[simp] theorem withOffer_ctx : (s.withOffer c).ctx = s.ctx := rfl
@[simp] theorem withOffer_ks : (s.withOffer c).ks = s.ks := rfl
@[simp] theorem withOffer_x : (s.withOffer c).x = s.x := rfl
@[simp] theorem withOffer_cur : (s.withOffer c).cur = s.cur := rfl
@[simp] theorem withOffer_seq : (s.withOffer c).seq = .idle := rfl
@[simp] theorem withOffer_pend : (s.withOffer c).pend = s.pend := rfl
@[simp] theorem withOffer_initd : (s.withOffer c).initd = s.initd := rfl
@[simp] theorem withOffer_errIll : (s.withOffer c).errIll = s.errIll := rfl
@[simp] theorem withOffer_errNoinit : (s.withOffer c).errNoinit = s.errNoinit := rfl
@[simp] theorem withOffer_port : (s.withOffer c).port = c :: s.port := rfl
@[simp] theorem withOffer_inputs : (s.withOffer c).inputs = s.inputs := rfl
@[simp] theorem withOffer_responses : (s.withOffer c).responses = s.responses := rfl
@[simp] theorem withOffer_draws : (s.withOffer c).draws = s.draws := rfl
end withOffer

section withSequencer
variable (s : State) (w : BitVec 7)
@[simp] theorem withSequencer_ctx : (s.withSequencer w).ctx = s.ctx := rfl
@[simp] theorem withSequencer_ks : (s.withSequencer w).ks = s.ks := rfl
@[simp] theorem withSequencer_x : (s.withSequencer w).x = s.x := rfl
@[simp] theorem withSequencer_cur : (s.withSequencer w).cur = s.cur := rfl
@[simp] theorem withSequencer_seq : (s.withSequencer w).seq = Seq.ofWord w := rfl
@[simp] theorem withSequencer_pend : (s.withSequencer w).pend = s.pend := rfl
@[simp] theorem withSequencer_initd : (s.withSequencer w).initd = s.initd := rfl
@[simp] theorem withSequencer_errIll : (s.withSequencer w).errIll = s.errIll := rfl
@[simp] theorem withSequencer_errNoinit : (s.withSequencer w).errNoinit = s.errNoinit := rfl
@[simp] theorem withSequencer_port : (s.withSequencer w).port = s.port := rfl
@[simp] theorem withSequencer_inputs : (s.withSequencer w).inputs = s.inputs := rfl
@[simp] theorem withSequencer_responses : (s.withSequencer w).responses = s.responses := rfl
@[simp] theorem withSequencer_draws : (s.withSequencer w).draws = s.draws := rfl
end withSequencer

section receive
variable (s : State)
@[simp] theorem receive_ctx : s.receive.ctx = s.ctx := by
  unfold State.receive; split <;> rfl
@[simp] theorem receive_ks : s.receive.ks = s.ks := by
  unfold State.receive; split <;> rfl
@[simp] theorem receive_x : s.receive.x = s.x := by
  unfold State.receive; split <;> rfl
@[simp] theorem receive_cur : s.receive.cur = s.cur := by
  unfold State.receive; split <;> rfl
@[simp] theorem receive_seq : s.receive.seq = s.seq := by
  unfold State.receive; split <;> rfl
@[simp] theorem receive_pend : s.receive.pend = s.pend := by
  unfold State.receive; split <;> rfl
@[simp] theorem receive_initd : s.receive.initd = s.initd := by
  unfold State.receive; split <;> rfl
@[simp] theorem receive_errIll : s.receive.errIll = s.errIll := by
  unfold State.receive; split <;> rfl
@[simp] theorem receive_errNoinit : s.receive.errNoinit = s.errNoinit := by
  unfold State.receive; split <;> rfl
@[simp] theorem receive_responses : s.receive.responses = s.responses := by
  unfold State.receive; split <;> rfl
@[simp] theorem receive_draws : s.receive.draws = s.draws := by
  unfold State.receive; split <;> rfl
end receive

section writeS
variable (s : State) (i : Fin 16) (v : Word)
@[simp] theorem writeS_ks : (s.writeS i v).ks = s.ks := by
  unfold State.writeS; split <;> rfl
@[simp] theorem writeS_x : (s.writeS i v).x = s.x := by
  unfold State.writeS; split <;> rfl
@[simp] theorem writeS_cur : (s.writeS i v).cur = s.cur := by
  unfold State.writeS; split <;> rfl
@[simp] theorem writeS_seq : (s.writeS i v).seq = s.seq := by
  unfold State.writeS; split <;> rfl
@[simp] theorem writeS_pend : (s.writeS i v).pend = s.pend := by
  unfold State.writeS; split <;> rfl
@[simp] theorem writeS_initd : (s.writeS i v).initd = s.initd := by
  unfold State.writeS; split <;> rfl
@[simp] theorem writeS_errIll : (s.writeS i v).errIll = s.errIll := by
  unfold State.writeS; split <;> rfl
@[simp] theorem writeS_errNoinit : (s.writeS i v).errNoinit = s.errNoinit := by
  unfold State.writeS; split <;> rfl
@[simp] theorem writeS_port : (s.writeS i v).port = s.port := by
  unfold State.writeS; split <;> rfl
@[simp] theorem writeS_inputs : (s.writeS i v).inputs = s.inputs := by
  unfold State.writeS; split <;> rfl
@[simp] theorem writeS_responses : (s.writeS i v).responses = s.responses := by
  unfold State.writeS; split <;> rfl
@[simp] theorem writeS_draws : (s.writeS i v).draws = s.draws := by
  unfold State.writeS; split <;> rfl
end writeS

section advanceCounter
variable (s : State)
@[simp] theorem advanceCounter_ks : s.advanceCounter.ks = s.ks := by
  simp only [State.advanceCounter]; split <;> simp
@[simp] theorem advanceCounter_x : s.advanceCounter.x = s.x := by
  simp only [State.advanceCounter]; split <;> simp
@[simp] theorem advanceCounter_cur : s.advanceCounter.cur = s.cur := by
  simp only [State.advanceCounter]; split <;> simp
@[simp] theorem advanceCounter_seq : s.advanceCounter.seq = s.seq := by
  simp only [State.advanceCounter]; split <;> simp
@[simp] theorem advanceCounter_pend : s.advanceCounter.pend = s.pend := by
  simp only [State.advanceCounter]; split <;> simp
@[simp] theorem advanceCounter_initd : s.advanceCounter.initd = s.initd := by
  simp only [State.advanceCounter]; split <;> simp
@[simp] theorem advanceCounter_errIll : s.advanceCounter.errIll = s.errIll := by
  simp only [State.advanceCounter]; split <;> simp
@[simp] theorem advanceCounter_errNoinit : s.advanceCounter.errNoinit = s.errNoinit := by
  simp only [State.advanceCounter]; split <;> simp
@[simp] theorem advanceCounter_port : s.advanceCounter.port = s.port := by
  simp only [State.advanceCounter]; split <;> simp
@[simp] theorem advanceCounter_inputs : s.advanceCounter.inputs = s.inputs := by
  simp only [State.advanceCounter]; split <;> simp
@[simp] theorem advanceCounter_responses : s.advanceCounter.responses = s.responses := by
  simp only [State.advanceCounter]; split <;> simp
@[simp] theorem advanceCounter_draws : s.advanceCounter.draws = s.draws := by
  simp only [State.advanceCounter]; split <;> simp
end advanceCounter

section raise
variable (s : State) (e : ErrorCause)
@[simp] theorem raise_ctx : (s.raise e).ctx = s.ctx := by
  cases e <;> rfl
@[simp] theorem raise_ks : (s.raise e).ks = s.ks := by
  cases e <;> rfl
@[simp] theorem raise_x : (s.raise e).x = s.x := by
  cases e <;> rfl
@[simp] theorem raise_cur : (s.raise e).cur = s.cur := by
  cases e <;> rfl
@[simp] theorem raise_seq : (s.raise e).seq = s.seq := by
  cases e <;> rfl
@[simp] theorem raise_pend : (s.raise e).pend = s.pend := by
  cases e <;> rfl
@[simp] theorem raise_initd : (s.raise e).initd = s.initd := by
  cases e <;> rfl
@[simp] theorem raise_port : (s.raise e).port = s.port := by
  cases e <;> rfl
@[simp] theorem raise_inputs : (s.raise e).inputs = s.inputs := by
  cases e <;> rfl
@[simp] theorem raise_draws : (s.raise e).draws = s.draws := by
  cases e <;> rfl
end raise

@[simp] theorem raise_illegal_errIll (s : State) : (s.raise .illegalCommand).errIll = true := rfl
@[simp] theorem raise_illegal_errNoinit (s : State) : (s.raise .illegalCommand).errNoinit = s.errNoinit := rfl
@[simp] theorem raise_illegal_responses (s : State) :
    (s.raise .illegalCommand).responses = s.responses ++ [{ rsp := .illegal, dout := 0#8 }] := rfl
@[simp] theorem raise_noinit_errIll (s : State) : (s.raise .notInitialised).errIll = s.errIll := rfl
@[simp] theorem raise_noinit_errNoinit (s : State) : (s.raise .notInitialised).errNoinit = true := rfl
@[simp] theorem raise_noinit_responses (s : State) :
    (s.raise .notInitialised).responses = s.responses ++ [{ rsp := .noinit, dout := 0#8 }] := rfl

/-- The increment of the counter writes the stored words of S and nothing else (R90). -/
theorem advanceCounter_eq (s : State) : s.advanceCounter = { s with ctx := s.advanceCounter.ctx } := by
  have write (s : State) (i : Fin 16) (v : Word) : s.writeS i v = { s with ctx := (s.writeS i v).ctx } := by
    unfold State.writeS; split <;> rfl
  unfold State.advanceCounter
  dsimp only
  split
  · rw [write (s.writeS 12 _), write s]
  · exact write _ _ _

/-- Arriving input changes the port and the inputs to come, and nothing else. -/
theorem receive_eq (s : State) : s.receive = { s with port := s.receive.port, inputs := s.receive.inputs } := by
  unfold State.receive; split <;> rfl

end Sys2Proof.Machine
end

