-- ==== Sys2Proof/Laws/Ops.lean ====
section
/-! SUPPORT. What the named operations over the word file S do: reading, writing, the increment of the counter, and the
counter of a word file. -/

namespace Sys2Proof.Machine
open Sys2Proof

/-- S depends on the stored words only. -/
theorem readS_congr {s t : State} (h : s.ctx = t.ctx) (i : Fin 16) : s.readS i = t.readS i := by
  simp [State.readS, h]

theorem words_congr {s t : State} (h : s.ctx = t.ctx) : s.words = t.words := by
  unfold State.words
  congr 1
  funext i
  exact readS_congr h i

theorem bc_congr {s t : State} (h : s.ctx = t.ctx) : s.bc = t.bc := by
  simp [State.bc, words_congr h]

@[simp] theorem words_get (s : State) (i : Fin 16) : s.words[i] = s.readS i := by
  simp [State.words]

theorem words_get_nat (s : State) (i : Nat) (h : i < 16) : s.words[i] = s.readS ⟨i, h⟩ := by
  simp [State.words]

theorem readS_const (s : State) (i : Fin 16) (h : i.val < 4) : s.readS i = constWord ⟨i.val, h⟩ := by
  simp [State.readS, h]

theorem readS_stored (s : State) (i : Fin 16) (h : ¬ i.val < 4) : s.readS i = s.ctx[i.val - 4] := by
  simp [State.readS, h]

/-- A write to a stored word of S changes that word and no other; a write to a hardwired word changes nothing. -/
theorem readS_writeS (s : State) (i j : Fin 16) (v : Word) :
    (s.writeS i v).readS j = if i = j ∧ 4 ≤ i.val then v else s.readS j := by
  unfold State.writeS
  split
  · next h => rw [if_neg (by omega)]
  · next h =>
    by_cases hj : j.val < 4
    · rw [readS_const _ _ hj, readS_const _ _ hj, if_neg (by omega)]
    · rw [readS_stored _ _ hj, readS_stored _ _ hj]
      by_cases hij : i = j
      · subst hij; simp; omega
      · rw [if_neg (by tauto), Vector.getElem_set_ne]
        omega

theorem readS_writeS_self (s : State) (i : Fin 16) (v : Word) (h : 4 ≤ i.val) : (s.writeS i v).readS i = v := by
  simp [readS_writeS, h]

theorem readS_writeS_ne (s : State) {i j : Fin 16} (v : Word) (h : i ≠ j) : (s.writeS i v).readS j = s.readS j := by
  simp [readS_writeS, h]

/-- What CTRINC's increment does to every word of S (R90). -/
theorem readS_advanceCounter (s : State) (i : Fin 16) :
    s.advanceCounter.readS i =
      if i = 12 then s.readS 12 + 1#32
      else if i = 13 ∧ s.readS 12 + 1#32 = 0#32 then s.readS 13 + 1#32
      else s.readS i := by
  have self : (s.writeS 12 (s.readS 12 + 1#32)).readS 12 = s.readS 12 + 1#32 := readS_writeS_self s 12 _ (by decide)
  have other : (s.writeS 12 (s.readS 12 + 1#32)).readS 13 = s.readS 13 := readS_writeS_ne s _ (by decide)
  unfold State.advanceCounter
  dsimp only
  rw [self, other]
  by_cases h0 : s.readS 12 + 1#32 = 0#32
  · rw [if_pos h0]
    by_cases h12 : i = 12
    · subst h12; rw [readS_writeS_ne _ _ (by decide), self]; simp
    · by_cases h13 : i = 13
      · subst h13; rw [readS_writeS_self _ _ _ (by decide)]; simp [h0]
      · rw [readS_writeS_ne _ _ (Ne.symm h13), readS_writeS_ne _ _ (Ne.symm h12)]; simp [h12, h13]
  · rw [if_neg h0]
    by_cases h12 : i = 12
    · subst h12; rw [self]; simp
    · rw [readS_writeS_ne _ _ (Ne.symm h12)]; simp [h12, h0]

/-- Every word of a word file after the increment. -/
theorem incCounter_get (w : Words) (i : Nat) (hi : i < 16) :
    (incCounter w)[i] = if i = 12 then w[12] + 1#32 else if i = 13 ∧ w[12] + 1#32 = 0#32 then w[13] + 1#32 else w[i] := by
  unfold incCounter
  by_cases h13 : i = 13
  · subst h13; simp
  · by_cases h12 : i = 12
    · subst h12; simp
    · rw [Vector.getElem_set_ne _ _ (by omega), Vector.getElem_set_ne _ _ (by omega)]; simp [h12, h13]

theorem incCounter_get_other (w : Words) (i : Nat) (hi : i < 16) (h12 : i ≠ 12) (h13 : i ≠ 13) :
    (incCounter w)[i] = w[i] := by
  rw [incCounter_get]; simp [h12, h13]

/-- CTRINC's increment is the atomic view's (R92). -/
theorem words_advanceCounter (s : State) : s.advanceCounter.words = incCounter s.words := by
  apply Vector.ext
  intro i hi
  have h12 : ((⟨i, hi⟩ : Fin 16) = 12) = (i = 12) := by rw [Fin.ext_iff]; rfl
  have h13 : ((⟨i, hi⟩ : Fin 16) = 13) = (i = 13) := by rw [Fin.ext_iff]; rfl
  rw [words_get_nat, readS_advanceCounter, incCounter_get, words_get_nat, words_get_nat, words_get_nat]
  simp only [h12, h13]
  rfl

/-- The counter of a word file counts one block more after the increment (R90, R92). -/
theorem counterOf_incCounter (w : Words) : counterOf (incCounter w) = counterOf w + 1#64 := by
  have key : ∀ lo hi : Word, (if lo + 1#32 = 0#32 then (hi + 1#32) ++ 0#32 else hi ++ (lo + 1#32)) = (hi ++ lo) + 1#64 := by
    intro lo hi
    apply BitVec.eq_of_toNat_eq
    have hlo := lo.isLt
    have hhi := hi.isLt
    have hlt : lo.toNat + 1 < 4294967296 ∨ lo.toNat + 1 = 4294967296 := by omega
    have happ : ∀ a b : Word, (a ++ b).toNat = a.toNat * 4294967296 + b.toNat := by
      intro a b
      rw [BitVec.toNat_append, Nat.shiftLeft_eq, Nat.mul_comm, ← Nat.two_pow_add_eq_or_of_lt b.isLt]
    rcases hlt with h | h
    · rw [if_neg (by intro e; have := congrArg BitVec.toNat e; simp at this; omega)]
      simp [happ]; omega
    · rw [if_pos (by apply BitVec.eq_of_toNat_eq; simp [h])]
      simp [happ]; omega
  unfold incCounter counterOf
  refine Eq.trans ?_ (key w[12] w[13])
  by_cases h0 : w[12] + 1#32 = 0#32 <;> simp [h0]

theorem bc_advanceCounter (s : State) : s.advanceCounter.bc = s.bc + 1#64 := by
  rw [State.bc, words_advanceCounter, counterOf_incCounter]; rfl

/-- Setting the counter back after the increment gives the word file the block was made from. -/
theorem withCounter_counterOf (w : Words) : withCounter w (counterOf w) = w := by
  apply Vector.ext
  intro i hi
  simp only [withCounter, counterOf, Vector.getElem_set]
  split
  · next h => subst h; rw [BitVec.extractLsb'_append_eq_left]
  · split
    · next h => subst h; rw [BitVec.extractLsb'_append_eq_right]
    · rfl

theorem withCounter_congr {w v : Words} (h : ∀ i (hi : i < 16), i ≠ 12 → i ≠ 13 → w[i] = v[i]) (c : BitVec 64) :
    withCounter w c = withCounter v c := by
  apply Vector.ext
  intro i hi
  simp only [withCounter, Vector.getElem_set]
  split
  · rfl
  · split
    · rfl
    · exact h i hi (by omega) (by omega)

theorem counterOf_withCounter (w : Words) (c : BitVec 64) : counterOf (withCounter w c) = c := by
  simp only [withCounter, counterOf, Vector.getElem_set]
  simp
  apply BitVec.eq_of_getLsbD_eq
  intro i hi
  rw [BitVec.getLsbD_append]
  by_cases h : i < 32
  · simp [h]
  · simp [h, show i - 32 < 32 by omega]; rw [show 32 + (i - 32) = i by omega]
end Sys2Proof.Machine
end

