-- ==== Sys2Proof/Laws/Block.lean ====
section
/-! SUPPORT. One lemma for each part of the block function, and the answer of each micro-operation. -/

namespace Sys2Proof.Machine

open Sys2Proof

@[simp] theorem addWords_get (x y : Words) (i : Nat) (hi : i < 16) : (addWords x y)[i] = x[i] + y[i] := by
  simp [addWords]

/-- A word of X after a lane has been written. -/
theorem lane_write_get (l : Lane) (x : Words) (q : Quad) (i : Nat) (hi : i < 16) :
    (l.write x q)[i] =
      if l.d.val = i then q.d else if l.c.val = i then q.c else if l.b.val = i then q.b
      else if l.a.val = i then q.a else x[i] := by
  simp [Lane.write, Vector.getElem_set]

/-- A word that a lane does not name is left alone. -/
theorem lane_write_other (l : Lane) (x : Words) (q : Quad) (i : Fin 16) (h : i ∉ l.indices) :
    (l.write x q)[i] = x[i] := by
  simp only [Lane.indices, List.mem_cons, List.not_mem_nil, or_false, not_or] at h
  obtain ⟨ha, hb, hc, hd⟩ := h
  have ne {j : Fin 16} (hj : ¬ i = j) : ¬ j.val = i.val := fun e => hj (Fin.ext e.symm)
  simp only [Fin.getElem_fin, lane_write_get, if_neg (ne ha), if_neg (ne hb), if_neg (ne hc), if_neg (ne hd)]

/-- Writing one lane leaves what a lane of other indices reads. -/
theorem lane_read_write_disjoint (l m : Lane) (x : Words) (q : Quad) (h : l.indices.Disjoint m.indices) :
    l.read (m.write x q) = l.read x := by
  have same (i : Fin 16) (hi : i ∈ l.indices) : (m.write x q)[i] = x[i] := lane_write_other m x q i fun hm => h hi hm
  simp only [Lane.read]
  rw [same l.a (by simp [Lane.indices]), same l.b (by simp [Lane.indices]), same l.c (by simp [Lane.indices]),
    same l.d (by simp [Lane.indices])]

/-- A lane of four different indices reads what was written to it. -/
theorem lane_read_write_self (l : Lane) (x : Words) (q : Quad) (h : l.indices.Nodup) : l.read (l.write x q) = q := by
  simp only [Lane.indices, List.nodup_cons, List.mem_cons, List.not_mem_nil, or_false, not_or, List.nodup_nil,
    not_false_iff, and_true] at h
  obtain ⟨⟨hab, hac, had⟩, ⟨hbc, hbd⟩, hcd⟩ := h
  have ne {j k : Fin 16} (hj : ¬ j = k) : ¬ k.val = j.val := fun e => hj (Fin.ext e.symm)
  cases q
  simp [Lane.read, lane_write_get, ne hab, ne hac, ne had, ne hbc, ne hbd, ne hcd]

/-- The lanes of each table name different indices, and no index twice. -/
theorem lane_tables_disjoint :
    (colLanes.Pairwise fun l m => ∀ i ∈ l.indices, i ∉ m.indices) ∧
    (diagLanes.Pairwise fun l m => ∀ i ∈ l.indices, i ∉ m.indices) ∧
    (∀ l ∈ colLanes ++ diagLanes, l.indices.Nodup) := by
  refine ⟨?_, ?_, by decide⟩ <;> simp [colLanes, diagLanes, Lane.indices]

/-- A half-round puts each of its lanes through the quarter-round, if the lanes name different indices. -/
theorem lane_read_fold (lanes : List Lane) (x acc : Words) (l : Lane) (hl : l ∈ lanes) (hn : l.indices.Nodup)
    (hd : lanes.Pairwise fun l m => ∀ i ∈ l.indices, i ∉ m.indices) :
    l.read (lanes.foldl (fun acc m => m.write acc (qr (m.read x))) acc) = qr (l.read x) := by
  have keep (ms : List Lane) : ∀ acc : Words, (∀ m ∈ ms, ∀ i ∈ l.indices, i ∉ m.indices) →
      l.read (ms.foldl (fun acc m => m.write acc (qr (m.read x))) acc) = l.read acc := by
    induction ms with
    | nil => intro acc _; rfl
    | cons m ms ih =>
      intro acc h
      rw [List.foldl_cons, ih _ fun n hn => h n (List.mem_cons_of_mem _ hn)]
      exact lane_read_write_disjoint l m acc _ fun i hi hm => h m List.mem_cons_self i hi hm
  induction lanes generalizing acc with
  | nil => cases hl
  | cons m ms ih =>
    rw [List.pairwise_cons] at hd
    rw [List.foldl_cons]
    rcases List.mem_cons.1 hl with rfl | hmem
    · rw [keep ms _ hd.1, lane_read_write_self _ _ _ hn]
    · exact ih _ hmem hd.2

theorem halfRound_col_lane (l : Lane) (hl : l ∈ colLanes) (x : Words) : l.read (halfRound colLanes x) = qr (l.read x) :=
  lane_read_fold colLanes x x l hl (lane_tables_disjoint.2.2 l (List.mem_append_left _ hl)) lane_tables_disjoint.1

theorem halfRound_diag_lane (l : Lane) (hl : l ∈ diagLanes) (x : Words) :
    l.read (halfRound diagLanes x) = qr (l.read x) :=
  lane_read_fold diagLanes x x l hl (lane_tables_disjoint.2.2 l (List.mem_append_right _ hl)) lane_tables_disjoint.2.1

theorem execColround_eq (k : BitVec 5) (s : State) :
    execColround k s = .next { s with x := halfRound colLanes s.x, seq := { s.seq with k := k + 1#5 } } := rfl

theorem execDiaground_eq (k : BitVec 5) (s : State) :
    execDiaground k s = .next { s with
      x := halfRound diagLanes s.x
      seq := if k.toNat < 19 then { s.seq with k := k + 1#5 } else { ph := .feedfwd, k := 0#5 } } := rfl

theorem execFeedfwd_eq (s : State) :
    execFeedfwd s = .next { s with ks := addWords s.x s.words, seq := { ph := .ctrinc, k := 0#5 } } := rfl

/-- CTRINC under this machine's CTR_WRAP. -/
theorem execCtrinc_eq (s : State) : execCtrinc s = .next s.advanceCounter.completeXorb := by
  simp [execCtrinc, ctrincUnder, Config.ctrWrap]

end Sys2Proof.Machine
end

