-- ==== Sys2Proof/Laws/Decode.lean ====
section
/-! SUPPORT. What the decoder gives for the values of SEQ and for the commands of the encoder. -/

namespace Sys2Proof.Machine

open Sys2Proof

theorem seq_word_ofWord (w : BitVec 7) : (Seq.ofWord w).word = w := by
  revert w; decide

theorem decodeSequencer_idle : decodeSequencer Seq.idle.word = .rejected .sequencerIdle := by decide

theorem decodeSequencer_feedfwd : decodeSequencer (Seq.word { ph := .feedfwd, k := 0#5 }) = .instr .feedfwd := by decide

theorem decodeSequencer_ctrinc : decodeSequencer (Seq.word { ph := .ctrinc, k := 0#5 }) = .instr .ctrinc := by decide

theorem decodeSequencer_round (k : BitVec 5) (h : k.toNat < 20) :
    decodeSequencer (Seq.word { ph := .round, k := k }) =
      .instr (if k.toNat % 2 = 0 then .colround k else .diaground k) := by
  revert k; decide

theorem decodeCommand_xorb (d : Byte) : decodeCommand (xorbCommand d) = .instr (.xorb d) := by
  revert d; decide

/-- A command decodes to INIT exactly when its word is 0x0001 (R63). -/
theorem decodeCommand_init_iff (c : Command) :
    (∃ key nonce ctr, decodeCommand c = .instr (.init key nonce ctr)) ↔ c.cmd = 0x0001#16 := by
  unfold decodeCommand
  by_cases h : c.cmd = 0x0001#16
  · simp [h]
  · by_cases h2 : c.cmd.extractLsb' 0 8 = 0x02#8 <;> simp [h, h2]

/-- A host command never decodes to a micro-operation (R71). -/
theorem decodeCommand_cases (c : Command) :
    (∃ key nonce ctr, decodeCommand c = .instr (.init key nonce ctr)) ∨
    (∃ d, decodeCommand c = .instr (.xorb d)) ∨ (∃ r, decodeCommand c = .rejected r) := by
  unfold decodeCommand
  by_cases h : c.cmd = 0x0001#16
  · simp [h]
  · by_cases h2 : c.cmd.extractLsb' 0 8 = 0x02#8 <;> simp [h, h2]

/-- What a value of SEQ can select, with the value. -/
theorem decodeSequencer_cases (q : Seq) :
    (q = .idle ∧ decodeSequencer q.word = .rejected .sequencerIdle) ∨
    (q.ph = .round ∧ q.k.toNat < 20 ∧ q.k.toNat % 2 = 0 ∧ decodeSequencer q.word = .instr (.colround q.k)) ∨
    (q.ph = .round ∧ q.k.toNat < 20 ∧ q.k.toNat % 2 = 1 ∧ decodeSequencer q.word = .instr (.diaground q.k)) ∨
    (q = { ph := .feedfwd, k := 0#5 } ∧ decodeSequencer q.word = .instr .feedfwd) ∨
    (q = { ph := .ctrinc, k := 0#5 } ∧ decodeSequencer q.word = .instr .ctrinc) ∨
    decodeSequencer q.word = .rejected .sequencerOutOfRange := by
  obtain ⟨ph, k⟩ := q
  cases ph <;> revert k <;> decide

end Sys2Proof.Machine
end

