-- ==== Sys2Proof/Laws/PerInstr.lean ====
section
/-! SUPPORT. Statements made of every instruction, one lemma for each constructor. FixedBits: the encoding of a well-formed
instruction carries its row's fixed bits, the columns match and mask of spec/opcode_table.json. -/

namespace Sys2Proof.Laws.FixedBits

open Sys2Proof

/-- The columns match and mask of the row of an instruction (R78). -/
def row : Instr → Nat × Nat
  | .init _ _ _ => (0x0001, 0xFFFF)
  | .xorb _ => (0x0002, 0x00FF)
  | .colround _ => (0x20, 0x61)
  | .diaground _ => (0x21, 0x61)
  | .feedfwd => (0x40, 0x7F)
  | .ctrinc => (0x60, 0x7F)

/-- The encoded word of an instruction as a number: CMD, or the value of SEQ. -/
def word (i : Instr) : Nat :=
  match encode i with
  | .command c => c.cmd.toNat
  | .sequencer w => w.toNat

/-- The encoding has the row's bits where the row fixes them. -/
def Statement (i : Instr) : Prop := i.wellFormed = true → word i &&& (row i).2 = (row i).1

theorem init (key : Key) (nonce : Nonce) (ctr : BitVec 64) : Statement (.init key nonce ctr) := fun _ => by
  simp [word, row, encode, initCommand]

theorem xorb (d : Byte) : Statement (.xorb d) := by
  unfold Statement; revert d; decide

theorem colround (k : BitVec 5) : Statement (.colround k) := by
  unfold Statement; revert k; decide

theorem diaground (k : BitVec 5) : Statement (.diaground k) := by
  unfold Statement; revert k; decide

theorem feedfwd : Statement .feedfwd := by
  unfold Statement; decide

theorem ctrinc : Statement .ctrinc := by
  unfold Statement; decide

end Sys2Proof.Laws.FixedBits
end

