-- ==== Sys2Proof/Laws/Step.lean ====
section
/-! SUPPORT. Everything a step can do, said once: the inversion lemmas that the proofs about steps cite. -/

namespace Sys2Proof.Machine

open Sys2Proof

/-- What a step with no reset is, by what SEQ and the port select. -/
theorem step_of_noReset {s : State} (h : s.resetAsserted = false) :
    step s = match s.receive.selectStep with
      | .run i t => exec i t
      | .settle t => .next t
      | .stop f => .fault f := by
  cases selected : s.receive.selectStep <;> simp [step, State.select, h, selected]

theorem step_of_reset {s : State} (h : s.resetAsserted = true) : step s = .next s.receive.resetEvent := by
  simp [step, State.select, h]

theorem selectStep_micro {s : State} {i : Instr} (h : decodeSequencer s.seq.word = .instr i) :
    s.selectStep = .run i s := by
  simp [State.selectStep, h]

theorem selectStep_idle {s : State} (h : s.seq = .idle) : s.selectStep = s.selectCommand := by
  simp [State.selectStep, h, decodeSequencer_idle]

/-- Every way a step without reset goes, with the values that decide it. -/
inductive StepCase (s t : State) : Prop where
  | wait (idle : s.seq = .idle) (port : s.port = []) (eq : t = s)
  | init (idle : s.seq = .idle) (c : Command) (later : List Command) (port : s.port = c :: later)
      (key : Key) (nonce : Nonce) (ctr : BitVec 64) (dec : decodeCommand c = .instr (.init key nonce ctr))
      (eq : t = { s with port := later, ctx := contextWords key nonce ctr, cur := 64#7, initd := true,
                         responses := s.responses ++ [{ rsp := .ok, dout := 0#8 }] })
  | serve (idle : s.seq = .idle) (c : Command) (later : List Command) (port : s.port = c :: later)
      (d : Byte) (dec : decodeCommand c = .instr (.xorb d)) (initd : s.initd = true) (cur : s.cur.toNat < 64)
      (eq : t = State.serveByte { s with port := later } d)
  | start (idle : s.seq = .idle) (c : Command) (later : List Command) (port : s.port = c :: later)
      (d : Byte) (dec : decodeCommand c = .instr (.xorb d)) (initd : s.initd = true) (cur : s.cur = 64#7)
      (eq : t = State.startBlock { s with port := later } d)
  | noContext (idle : s.seq = .idle) (c : Command) (later : List Command) (port : s.port = c :: later)
      (d : Byte) (dec : decodeCommand c = .instr (.xorb d)) (initd : s.initd = false)
      (eq : t = State.raise { s with port := later } .notInitialised)
  | illegal (idle : s.seq = .idle) (c : Command) (later : List Command) (port : s.port = c :: later)
      (r : Reject) (dec : decodeCommand c = .rejected r)
      (eq : t = State.raise { s with port := later } .illegalCommand)
  | colround (ph : s.seq.ph = .round) (lt : s.seq.k.toNat < 20) (even : s.seq.k.toNat % 2 = 0)
      (eq : t = { s with x := halfRound colLanes s.x, seq := { ph := .round, k := s.seq.k + 1#5 } })
  | diaground (ph : s.seq.ph = .round) (lt : s.seq.k.toNat < 20) (odd : s.seq.k.toNat % 2 = 1)
      (eq : t = { s with
        x := halfRound diagLanes s.x
        seq := if s.seq.k.toNat < 19 then { ph := .round, k := s.seq.k + 1#5 } else { ph := .feedfwd, k := 0#5 } })
  | feedfwd (seq : s.seq = { ph := .feedfwd, k := 0#5 })
      (eq : t = { s with ks := addWords s.x s.words, seq := { ph := .ctrinc, k := 0#5 } })
  | ctrinc (seq : s.seq = { ph := .ctrinc, k := 0#5 }) (eq : t = s.advanceCounter.completeXorb)

/-- A step with a next state is the reset event or one of the cases of `StepCase`, from the state with the step's input
arrived. -/
theorem step_cases {s t : State} (h : step s = .next t) :
    (s.resetAsserted = true ∧ t = s.receive.resetEvent) ∨ (s.resetAsserted = false ∧ StepCase s.receive t) := by
  cases hr : s.resetAsserted with
  | true => rw [step_of_reset hr] at h; injection h with h; exact .inl ⟨rfl, h.symm⟩
  | false =>
    refine .inr ⟨rfl, ?_⟩
    rw [step_of_noReset hr] at h
    generalize s.receive = u at h ⊢
    rcases decodeSequencer_cases u.seq with
      ⟨hq, hd⟩ | ⟨hph, hlt, hev, hd⟩ | ⟨hph, hlt, hodd, hd⟩ | ⟨hq, hd⟩ | ⟨hq, hd⟩ | hd
    · rw [selectStep_idle hq] at h
      unfold State.selectCommand at h
      cases hp : u.port with
      | nil => simp only [hp] at h; injection h with h; exact .wait hq hp h.symm
      | cons c later =>
        simp only [hp] at h
        rcases decodeCommand_cases c with ⟨key, nonce, ctr, hc⟩ | ⟨d, hc⟩ | ⟨r, hc⟩
        · simp only [hc, exec, execInit] at h; injection h with h
          exact .init hq c later hp key nonce ctr hc h.symm
        · simp only [hc, exec, execXorb] at h
          split at h
          · next hi => injection h with h; exact .noContext hq c later hp d hc hi h.symm
          · next hi =>
            split at h
            · next hcur => injection h with h; exact .serve hq c later hp d hc (by simpa using hi) hcur h.symm
            · split at h
              · next hcur => injection h with h; exact .start hq c later hp d hc (by simpa using hi) hcur h.symm
              · cases h
        · simp only [hc] at h; injection h with h; exact .illegal hq c later hp r hc h.symm
    · rw [selectStep_micro hd] at h; simp only [exec, execColround_eq, hph] at h; injection h with h
      exact .colround hph hlt hev h.symm
    · rw [selectStep_micro hd] at h; simp only [exec, execDiaground_eq, hph] at h; injection h with h
      exact .diaground hph hlt hodd h.symm
    · rw [selectStep_micro hd] at h; simp only [exec, execFeedfwd_eq] at h; injection h with h
      exact .feedfwd hq h.symm
    · rw [selectStep_micro hd] at h; simp only [exec, execCtrinc_eq] at h; injection h with h
      exact .ctrinc hq h.symm
    · simp [State.selectStep, hd] at h

end Sys2Proof.Machine
end

