-- ==== Sys2Proof/Tests/Slice0.lean ====
section
/-! SUPPORT. Tests of the model on values of the spec (each names its place), the smoke test of WellFormed, and for every
statement with hypotheses a witness that meets them. -/

namespace Sys2Proof.Tests

open Sys2Proof Sys2Proof.Machine

/-! ### Small states and helpers -/

/-- A CORE with a context, idle, with no byte buffered. -/
def ready : State := { State.reset with initd := true }

/-- As `ready`, with the cursor at `c`. -/
def serving (c : BitVec 7) : State := { ready with cur := c }

/-- As `ready`, with a block in progress at SEQ value `q` for the byte 0x41. -/
def busy (q : Seq) : State := { ready with seq := q, pend := 0x41 }

/-- `s` with the commands `cs` offered. -/
def offering (s : State) (cs : List Command) : State := { s with port := cs }

/-- `s` with the reset input asserted at the next step. -/
def resetting (s : State) : State := { s with inputs := [{ reset := true, offer := none }] }

/-- An illegal command: OP = 3 (95_test_vectors.md L2.7). -/
def badCommand : Command := { cmd := 0x0003, payload := 0 }

/-- X or KS with word i equal to i (L2.3). -/
def counting : Words := Vector.ofFn fun i => BitVec.ofNat 32 i.val

/-- The key 000102...1f of L1.1. -/
def ietfKey : Key := Vector.ofFn fun i => BitVec.ofNat 8 i.val

/-- The nonce 000000090000004a00000000 of L1.1. -/
def ietfNonce : Nonce := #v[0, 0, 0, 9, 0, 0, 0, 0x4a, 0, 0, 0, 0]

/-- A nonce that differs from `ietfNonce` in nonce word 0 only: one more (R149). -/
def nextNonce : Nonce := #v[1, 0, 0, 9, 0, 0, 0, 0x4a, 0, 0, 0, 0]

/-- A step in which a micro-operation runs. -/
theorem step_micro {s t : State} (i : Instr) (h : s.resetAsserted = false)
    (hd : decodeSequencer s.receive.seq.word = .instr i) (he : exec i s.receive = .next t) : step s = .next t := by
  rw [step_of_noReset h, selectStep_micro hd]; exact he

/-- A step in which an idle CORE with no offer waits. -/
theorem step_wait {s : State} (h : s.resetAsserted = false) (hq : s.receive.seq = .idle) (hp : s.receive.port = []) :
    step s = .next s.receive := by
  rw [step_of_noReset h, selectStep_idle hq]; simp [State.selectCommand, hp]

/-- A step in which the standing offer is accepted. -/
theorem step_accept {s t : State} {c : Command} {later : List Command} (i : Instr) (h : s.resetAsserted = false)
    (hq : s.receive.seq = .idle) (hp : s.receive.port = c :: later) (hd : decodeCommand c = .instr i)
    (he : exec i { s.receive with port := later } = .next t) : step s = .next t := by
  rw [step_of_noReset h, selectStep_idle hq]; simp only [State.selectCommand, hp, hd]; exact he

/-- Whether an outcome is a next state that passes a check. -/
def nextAnd (check : State → Bool) : Host.Outcome State Fault Refusal → Bool
  | .next t => check t
  | .fault _ => false
  | .refused _ => false

/-! ### WellFormed: an ill-formed term for each check, refused -/

theorem test_wellFormed_colround_odd : (Instr.colround 1).wellFormed = false := by decide
theorem test_wellFormed_colround_large : (Instr.colround 20).wellFormed = false := by decide
theorem test_wellFormed_diaground_even : (Instr.diaground 0).wellFormed = false := by decide
theorem test_wellFormed_diaground_large : (Instr.diaground 21).wellFormed = false := by decide

/-! ### Decoding: words written out from the encodings of 30_encoding.md R63, R64, R71, and L2.5, L2.7 -/

/-- The first row of L2.5: the key's, the nonce's and the counter's places in PAYLOAD. -/
theorem test_decode_init :
    decodeCommand { cmd := 0b0000000000000001, payload :=
      0x0000000000000001000000004a000000090000001f1e1d1c1b1a191817161514131211100f0e0d0c0b0a09080706050403020100 } =
      .instr (.init ietfKey ietfNonce 1) := by decide +kernel

theorem test_decode_xorb : decodeCommand { cmd := 0b0100000100000010, payload := 0 } = .instr (.xorb 0x41) := by
  decide +kernel

theorem test_decode_colround : decodeSequencer 0b0110010 = .instr (.colround 18) := by decide
theorem test_decode_diaground : decodeSequencer 0b0100001 = .instr (.diaground 1) := by decide
theorem test_decode_feedfwd : decodeSequencer 0b1000000 = .instr .feedfwd := by decide
theorem test_decode_ctrinc : decodeSequencer 0b1100000 = .instr .ctrinc := by decide
theorem test_decode_idle : decodeSequencer 0b0000000 = .rejected .sequencerIdle := by decide
theorem test_decode_k20 : decodeSequencer 0b0110100 = .rejected .sequencerOutOfRange := by decide

/-- The illegal words of L2.7, each rejected by its case of R68. -/
theorem test_decode_illegal :
    [0x0101, 0x0011, 0x0012, 0x4112, 0x0000, 0x0003, 0x000F, 0xFFFF].map
      (fun w => decodeCommand { cmd := BitVec.ofNat 16 w, payload := 0 }) =
    [.rejected .initDataNotZero, .rejected .initReservedNotZero, .rejected .xorbReservedNotZero,
     .rejected .xorbReservedNotZero, .rejected .illegalOp, .rejected .illegalOp, .rejected .illegalOp,
     .rejected .illegalOp] := by decide +kernel

/-! ### Values of the spec -/

/-- L2.1. -/
theorem test_rotl32 :
    [rotl32 0x80000000 1, rotl32 0x00000001 16, rotl32 0x12345678 8, rotl32 0x01020304 12, rotl32 0x80000001 7] =
      [0x00000001, 0x00010000, 0x34567812, 0x20304010, 0x000000c0] := by decide

/-- L2.2, the row of one bit in d. -/
theorem test_qr_bit_in_d : qr ⟨0, 0, 0, 1⟩ = ⟨0x10000000, 0x80800808, 0x01010010, 0x01000010⟩ := by decide

/-- L2.3, COLROUND on X[i] = i. -/
theorem test_colround :
    nextAnd (fun t => t.x = #v[0x8000c004, 0xb000c006, 0x6000c008, 0x5000c00a, 0x64624444, 0xe5e35cdd, 0x63643533,
      0xe2e52daa, 0x08c80488, 0x0bcb06b9, 0x06c6086a, 0x05c50a5b, 0x08c00480, 0x0bc006b0, 0x06c00860, 0x05c00a50])
      (exec (.colround 0) { busy { ph := .round, k := 0 } with x := counting }) = true := by decide +kernel

/-- L2.3, DIAGROUND on X[i] = i. -/
theorem test_diaground :
    nextAnd (fun t => t.x = #v[0xa000f005, 0xb000d007, 0x4000f009, 0x9000d007, 0xecebcccc, 0x7d7ad555, 0xedebdddd,
      0x7a7ca422, 0x04f40948, 0x09d90799, 0x0afa05aa, 0x0bdb07bb, 0x0bd007b0, 0x04f00940, 0x09d00790, 0x0af005a0])
      (exec (.diaground 1) { busy { ph := .round, k := 1 } with x := counting }) = true := by decide +kernel

/-- L2.3, step 20: SEQ goes from 0x33 to 0x40. -/
theorem test_diaground_leaves_round :
    nextAnd (fun t => t.seq.word = 0x40) (step (busy { ph := .round, k := 19 })) = true := by decide +kernel

/-- L2.3, step 21, its last two words: 4e3c50a2 and e883d0cb. -/
theorem test_feedfwd :
    nextAnd (fun t => t.ks[15] = 0x4e3c50a2 ∧ t.ks[14] = 0xe883d0cb)
      (exec .feedfwd { busy { ph := .feedfwd, k := 0 } with
        ctx := contextWords ietfKey ietfNonce 1
        x := (counting.set 14 0x9e83d0cb).set 15 0x4e3c50a2 }) = true := by decide +kernel

/-- R90, the rule's example: the carry from S[12] into S[13]. -/
theorem test_ctrinc_carry :
    nextAnd (fun t => t.readS 12 = 0 ∧ t.readS 13 = 0x09000001 ∧ t.cur = 1)
      (exec .ctrinc { busy { ph := .ctrinc, k := 0 } with ctx := contextWords ietfKey ietfNonce 0xFFFFFFFF }) = true := by
  decide +kernel

/-- L2.6, row 1: the block's first byte, 0x10, answers the pending XORB (here of 0x41). -/
theorem test_ctrinc_answer :
    nextAnd (fun t => t.responses = [{ rsp := .ok, dout := 0x41 ^^^ 0x10 }])
      (step { busy { ph := .ctrinc, k := 0 } with
        ctx := contextWords ietfKey ietfNonce 1, ks := counting.set 0 0xe4e7f110 }) = true := by decide +kernel

/-- L1.1, the state after INIT: S[4], S[11] to S[15]. -/
theorem test_init_words :
    nextAnd (fun t => [4, 11, 12, 13, 14, 15].map t.readS =
        [0x03020100, 0x1f1e1d1c, 0x00000001, 0x09000000, 0x4a000000, 0x00000000])
      (exec (.init ietfKey ietfNonce 1) State.reset) = true := by decide +kernel

/-- L2.4 B5: nonce word 0 = 0xFFFFFFFF plus counter high half 1 wraps to 0. -/
theorem test_init_nonce_wraps :
    nextAnd (fun t => t.readS 13 = 0 ∧ t.cur = 64)
      (exec (.init ietfKey #v[0xff, 0xff, 0xff, 0xff, 0, 0, 0, 0x4a, 0, 0, 0, 0] 0x0000000100000000) State.reset) =
      true := by decide +kernel

/-- L2.6, row 2: XORB 0xFF at CUR = 1 answers 0x0e. -/
theorem test_xorb_second_byte :
    nextAnd (fun t => t.responses = [{ rsp := .ok, dout := 0x0e }] ∧ t.cur = 2)
      (exec (.xorb 0xFF) { serving 1 with ks := counting.set 0 0xe4e7f110 }) = true := by decide +kernel

/-- L2.6: ks[63] = 0x4e, and the cursor is left at 64. -/
theorem test_xorb_last_byte :
    nextAnd (fun t => t.responses = [{ rsp := .ok, dout := 0x4e }] ∧ t.cur = 64)
      (exec (.xorb 0x00) { serving 63 with ks := counting.set 15 0x4e3c50a2 }) = true := by decide +kernel

/-- L2.8, row 1: XORB before INIT leaves STATUS 0x0009. -/
theorem test_status_noinit :
    nextAnd (fun t => t.status = 0x0009 ∧ t.responses = [{ rsp := .noinit, dout := 0x00 }])
      (step (offering State.reset [xorbCommand 0x41])) = true := by decide +kernel

/-- L2.8, the priority line: CMD 0x4112 at reset is ILLEGAL, and STATUS is 0x0005. -/
theorem test_status_illegal :
    nextAnd (fun t => t.status = 0x0005 ∧ t.responses = [{ rsp := .illegal, dout := 0x00 }])
      (step (offering State.reset [{ cmd := 0x4112, payload := 0 }])) = true := by decide +kernel

/-- L2.9: a reset in the middle of a block leaves STATUS 0x0001 and gives no response. -/
theorem test_reset_mid_block :
    nextAnd (fun t => t.status = 0x0001 ∧ t.responses = [] ∧ t.cur = 64)
      (step (resetting (busy { ph := .round, k := 5 }))) = true := by decide +kernel

/-- L2.4 B1: words 0 and 15 of the block made from the state of L1.1. -/
theorem test_block_ietf :
    (blockKs (State.words { State.reset with ctx := contextWords ietfKey ietfNonce 1 }))[0] = 0xe4e7f110 ∧
    (blockKs (State.words { State.reset with ctx := contextWords ietfKey ietfNonce 1 }))[15] = 0x4e3c50a2 := by
  decide +kernel

/-- L1.4, the third row: byte 64 of the B4 stream is 0x88, from the block after the carry. -/
theorem test_keystream_after_carry :
    keystreamByte (State.words { State.reset with ctx := contextWords ietfKey ietfNonce 0xFFFFFFFF }) 64 = 0x88 := by
  decide +kernel

/-- R73's example, and R74's expansion. -/
theorem test_assemble_xorb :
    assemble "XORB 0x41".toList = some [{ cmd := 0x4102, payload := 0 }] ∧
    assemble "APPLY 0x00 0xFF 0x10".toList = some [xorbCommand 0x00, xorbCommand 0xFF, xorbCommand 0x10] ∧
    assemble "KSTREAM 2".toList = some [xorbCommand 0x00, xorbCommand 0x00] := by decide +kernel

/-- R72's example, with the counter in decimal. -/
theorem test_assemble_init :
    assemble
      "INIT key=000102030405060708090a0b0c0d0e0f101112131415161718191a1b1c1d1e1f, nonce=000000090000004a00000000, ctr=1".toList
      = some [initCommand ietfKey ietfNonce 1] := by decide +kernel

/-- Each row of the table runs as the first step after reset. -/
theorem test_rows_run_after_reset :
    [(16, 0x0001), (16, 0x4102), (8, 0x20), (8, 0x21), (8, 0x40), (8, 0x60)].map
      (fun row => nextAnd (fun _ => true) (step (State.reset.withFetchWord row.1 row.2))) =
      [true, true, true, true, true, true] := by decide +kernel

/-! ### Witnesses: what meets the hypotheses of each statement that has some -/

theorem witness_EncodingsDecodeBack :
    (Instr.colround 18).wellFormed = true ∧ (Instr.diaground 19).wellFormed = true ∧ (Instr.xorb 0xFF).wellFormed = true ∧
    (Instr.init ietfKey ietfNonce 1).wellFormed = true ∧ Instr.feedfwd.wellFormed = true ∧ Instr.ctrinc.wellFormed = true := by
  decide

theorem witness_DecodedWordsEncodeBack :
    decode (.command { cmd := 0xFF02, payload := 5 }) = .instr (.xorb 0xFF) ∧
    decode (.sequencer 0x32) = .instr (.colround 18) := by decide +kernel

theorem witness_InitOperandsComeFromPayload : (0 : Fin 32).val < 32 ∧ (7 : Nat) < 8 ∧ (63 : Nat) < 64 := by decide

theorem witness_RotationMovesBits : 1 ≤ 1 ∧ 1 ≤ 31 ∧ 31 < 32 ∧ 31 ≤ 31 ∧ 0 < 32 := by decide

theorem witness_LanesCommute :
    colLanes ∈ [colLanes, diagLanes] ∧ colLanes.reverse.Perm colLanes ∧
    diagLanes ∈ [colLanes, diagLanes] ∧ diagLanes.reverse.Perm diagLanes := by decide

theorem witness_ConstantsAreHardwired : (0 : Fin 16).val < 4 ∧ (3 : Fin 16).val < 4 := by decide

theorem witness_StatusFields : 4 ≤ 4 ∧ 4 ≤ 15 := by decide

theorem witness_InputArrives :
    ready.inputs = [] ∧ (resetting ready).inputs = { reset := true, offer := none } :: [] := ⟨rfl, rfl⟩

theorem witness_StepRunsTheMicroOperation :
    (busy { ph := .round, k := 0 }).resetAsserted = false ∧
    decodeSequencer (busy { ph := .round, k := 0 }).seq.word = .instr (.colround 0) ∧
    decodeSequencer (busy { ph := .ctrinc, k := 0 }).seq.word = .instr .ctrinc := by decide

theorem witness_StepRunsTheAcceptedCommand :
    (offering ready [xorbCommand 0x41]).resetAsserted = false ∧ (offering ready [xorbCommand 0x41]).seq = .idle ∧
    (offering ready [xorbCommand 0x41]).receive.port = xorbCommand 0x41 :: [] ∧
    decodeCommand (xorbCommand 0x41) = .instr (.xorb 0x41) := ⟨rfl, rfl, rfl, decodeCommand_xorb _⟩

theorem witness_IllegalCommandIsRefused :
    (offering ready [badCommand]).resetAsserted = false ∧ (offering ready [badCommand]).seq = .idle ∧
    (offering ready [badCommand]).receive.port = badCommand :: [] ∧
    decodeCommand badCommand = .rejected .illegalOp := ⟨rfl, rfl, rfl, by decide +kernel⟩

theorem witness_IdleCoreKeepsItsState :
    ready.resetAsserted = false ∧ ready.seq = .idle ∧ ready.receive.port = [] := ⟨rfl, rfl, rfl⟩

/-- A step of a busy CORE, with an offer waiting. -/
theorem witness_BusyCoreAcceptsNothing :
    ∃ t, (offering (busy { ph := .feedfwd, k := 0 }) [badCommand]).resetAsserted = false ∧
      (offering (busy { ph := .feedfwd, k := 0 }) [badCommand]).seq.ph ≠ .idle ∧
      step (offering (busy { ph := .feedfwd, k := 0 }) [badCommand]) = .next t ∧
      (offering (busy { ph := .feedfwd, k := 0 }) [badCommand]).seq.ph ≠ .ctrinc := by
  exact ⟨_, rfl, by decide, step_micro .feedfwd rfl (by decide) (execFeedfwd_eq _), by decide⟩

theorem witness_ResetSetsTheState : (resetting (busy { ph := .round, k := 31 })).resetAsserted = true := rfl

theorem witness_InitCounterIsShiftedByNonce : ∃ t, exec (.init ietfKey ietfNonce 1) State.reset = .next t := ⟨_, rfl⟩

theorem witness_InitIsIdempotent :
    ∃ t u, exec (.init ietfKey ietfNonce 1) State.reset = .next t ∧ exec (.init ietfKey ietfNonce 1) t = .next u :=
  ⟨_, _, rfl, rfl⟩

/-- R149's example: N0 with C = 2^32, and N0 + 1 with C = 0. -/
theorem witness_CollidingOperandsGiveOneContext :
    (0x0000000100000000 : BitVec 64) + (nonceWord ietfNonce 0).setWidth 64 <<< 32 =
      0 + (nonceWord nextNonce 0).setWidth 64 <<< 32 ∧
    nonceWord ietfNonce 1 = nonceWord nextNonce 1 ∧ nonceWord ietfNonce 2 = nonceWord nextNonce 2 := by decide

theorem witness_XorbServesTheBufferedByte :
    (serving 0).initd = true ∧ (serving 0).cur.toNat = 4 * (0 : Fin 16).val + (0 : Fin 4).val ∧
    (serving 63).initd = true ∧ (serving 63).cur.toNat = 4 * (15 : Fin 16).val + (3 : Fin 4).val := by decide

theorem witness_XorbStartsABlock : ready.initd = true ∧ ready.cur = 64 := ⟨rfl, rfl⟩

theorem witness_XorbWithoutContextIsRefused : State.reset.initd = false := rfl

theorem witness_XorbStopsOnUnreachableCursor :
    (serving 65).initd = true ∧ 64 < (serving 65).cur.toNat ∧ 64 < (serving 127).cur.toNat := by decide

theorem witness_DiagroundMixesTheDiagonals : (18 : BitVec 5).toNat < 19 ∧ 19 ≤ (19 : BitVec 5).toNat := by decide

theorem witness_CtrincAdvancesTheBlockCounter : ∃ t, exec .ctrinc (busy { ph := .ctrinc, k := 0 }) = .next t :=
  ⟨_, execCtrinc_eq _⟩

/-- A step of the last half-round, which holds PEND, and a CTRINC step, which answers it. -/
theorem witness_PendingByteIsHeldUntilAnswered :
    (∃ t, (busy { ph := .round, k := 19 }).resetAsserted = false ∧ (busy { ph := .round, k := 19 }).seq.ph ≠ .idle ∧
      step (busy { ph := .round, k := 19 }) = .next t ∧ (busy { ph := .round, k := 19 }).seq.ph ≠ .ctrinc) ∧
    (∃ t, (busy { ph := .ctrinc, k := 0 }).resetAsserted = false ∧ (busy { ph := .ctrinc, k := 0 }).seq.ph ≠ .idle ∧
      step (busy { ph := .ctrinc, k := 0 }) = .next t ∧ (busy { ph := .ctrinc, k := 0 }).seq.ph = .ctrinc) :=
  ⟨⟨_, rfl, by decide, step_micro (.diaground 19) rfl (by decide) (execDiaground_eq _ _), by decide⟩,
   ⟨_, rfl, by decide, step_micro .ctrinc rfl (by decide) (execCtrinc_eq _), by decide⟩⟩

/-- BC = 2^64 - 1, and a BC below it (L2.4 B6 and B1). -/
theorem witness_CounterWrapParameter :
    (State.bc { busy { ph := .ctrinc, k := 0 } with
      ctx := contextWords ietfKey (Vector.replicate 12 0) 0xFFFFFFFFFFFFFFFF }).toNat = 2 ^ 64 - 1 ∧
    (State.bc { ready with ctx := contextWords ietfKey ietfNonce 1 }).toNat < 2 ^ 64 - 1 := by decide +kernel

theorem witness_BlockKeepsKeyAndNonce : (0 : Fin 16) ≠ 12 ∧ (0 : Fin 16) ≠ 13 ∧ (15 : Fin 16) ≠ 12 ∧ (15 : Fin 16) ≠ 13 := by
  decide

theorem witness_InstructionsKeepTheirFrame :
    (∃ t, exec (.init ietfKey ietfNonce 1) ready = .next t) ∧ (∃ t, exec (.xorb 0x41) (serving 63) = .next t) ∧
    (∃ t, exec (.xorb 0x41) State.reset = .next t) ∧ (∃ t, exec (.colround 0) ready = .next t) ∧
    (∃ t, exec (.diaground 19) ready = .next t) ∧ (∃ t, exec .feedfwd ready = .next t) ∧
    (∃ t, exec .ctrinc (busy { ph := .ctrinc, k := 0 }) = .next t) :=
  ⟨⟨_, rfl⟩, ⟨_, rfl⟩, ⟨_, rfl⟩, ⟨_, rfl⟩, ⟨_, rfl⟩, ⟨_, rfl⟩, ⟨_, execCtrinc_eq _⟩⟩

theorem witness_StepsAnswerAtMostOnce : ∃ t, step ready = .next t := ⟨_, step_wait rfl rfl rfl⟩

/-- A step with both flags set, and an instruction that runs. -/
theorem witness_ErrorFlagsAreSticky :
    (∃ t, step { ready with errIll := true, errNoinit := true } = .next t) ∧
    State.resetAsserted { ready with errIll := true, errNoinit := true } = false ∧
    (∃ t, exec (.colround 0) ready = .next t) :=
  ⟨⟨_, step_wait rfl rfl rfl⟩, rfl, ⟨_, execColround_eq _ _⟩⟩

/-- A CTRINC step: SEQ is not idle, so no INIT is accepted. -/
theorem witness_ContextChangesOnlyAtInit :
    ∃ s t : State, s.resetAsserted = false ∧ step s = .next t ∧
      (∀ (c : Command) (later : List Command), s.seq = .idle → s.receive.port = c :: later → c.cmd ≠ 0x0001) := by
  exact ⟨busy { ph := .ctrinc, k := 0 }, _, rfl, step_micro .ctrinc rfl (by decide) (execCtrinc_eq _),
    fun _ _ idle => absurd idle (by decide)⟩

/-- An idle step, where BC stays; the witness above is one where it advances. -/
theorem witness_BlockCounterCountsBlocks :
    ∃ s t : State, s.resetAsserted = false ∧ step s = .next t ∧
      (∀ (c : Command) (later : List Command), s.seq = .idle → s.receive.port = c :: later → c.cmd ≠ 0x0001) := by
  exact ⟨ready, _, rfl, step_wait rfl rfl rfl, fun _ _ _ port => by cases port⟩

theorem ready_inv : ready.Inv := by
  constructor <;> simp [ready, State.reset, State.resetAt, Seq.legal]

theorem offering_inv (cs : List Command) : (offering ready cs).Inv := by
  constructor <;> simp [offering, ready, State.reset, State.resetAt, Seq.legal]

theorem busy_inv : (busy { ph := .round, k := 19 }).Inv := by
  constructor <;> simp [busy, ready, State.reset, State.resetAt, Seq.legal]

/-- A busy state that meets the invariant, with its step. -/
theorem witness_StepKeepsControlInvariant : ∃ s t : State, s.Inv ∧ step s = .next t := by
  exact ⟨busy { ph := .round, k := 19 }, _, busy_inv, step_micro (.diaground 19) rfl (by decide) (execDiaground_eq _ _)⟩

theorem witness_InvariantStatesAreSafe : (busy { ph := .round, k := 19 }).Inv := busy_inv

/-- The first half-round of a block: X is the copy of S. -/
theorem witness_StepKeepsBlockData : ∃ s t : State, s.Inv ∧ s.DataInv ∧ step s = .next t := by
  have stepped : ∃ t, step { busy { ph := .round, k := 0 } with x := ready.words } = .next t :=
    ⟨_, step_micro (.colround 0) rfl (by decide) (execColround_eq _ _)⟩
  obtain ⟨t, eq⟩ := stepped
  refine ⟨_, t, ?_, ?_, eq⟩
  · constructor <;> simp [busy, ready, State.reset, State.resetAt, Seq.legal]
  · constructor
    · intro _; rfl
    all_goals intro h; cases h

/-- A block started while the host offers one more command at the step after, and no reset comes. -/
theorem witness_BlockStepsMeetTheAtomicView :
    ∃ s : State, s.seq = .idle ∧ s.initd = true ∧ s.cur = 64 ∧ s.port = xorbCommand 0x41 :: [badCommand] ∧
      decodeCommand (xorbCommand 0x41) = .instr (.xorb 0x41) ∧ (∀ input ∈ s.inputs.take 23, input.reset = false) := by
  refine ⟨{ offering ready [xorbCommand 0x41, badCommand] with inputs := [{ reset := false, offer := some badCommand }] },
    rfl, rfl, rfl, rfl, decodeCommand_xorb _, ?_⟩
  simp

theorem witness_EveryCommandIsAnswered :
    (offering ready [badCommand]).Inv ∧ (offering ready [badCommand]).seq = .idle ∧
    (offering ready [badCommand]).inputs = [] ∧ (offering ready [badCommand]).port = badCommand :: [] :=
  ⟨offering_inv _, rfl, rfl, rfl⟩

/-- An XORB, an illegal command and another XORB. -/
theorem witness_KeystreamClosedForm :
    ∃ s : State, ∃ commands : List Command, s.seq = .idle ∧ s.initd = true ∧ s.cur = 64 ∧ s.inputs = [] ∧
      s.port = commands ∧ (∀ c ∈ commands, c.cmd ≠ 0x0001) ∧ [0x41, 0x42] = commands.filterMap xorbData := by
  refine ⟨offering ready [xorbCommand 0x41, badCommand, xorbCommand 0x42], _, rfl, rfl, rfl, rfl, rfl, ?_, ?_⟩
  · decide
  · decide +kernel

theorem witness_KstreamReturnsTheKeystream :
    ∃ s : State, s.seq = .idle ∧ s.initd = true ∧ s.cur = 64 ∧ s.inputs = [] ∧ s.port = expandKstream 70 :=
  ⟨offering ready (expandKstream 70), rfl, rfl, rfl, rfl, rfl⟩

theorem witness_RoundTripGivesTheBytesBack : ready.Inv ∧ ready.Finished ∧ ready.inputs = [] := ⟨ready_inv, ⟨rfl, rfl⟩, rfl⟩

theorem witness_SplitBuffersAreOneStream : ready.Inv ∧ ready.Finished ∧ ready.inputs = [] := ⟨ready_inv, ⟨rfl, rfl⟩, rfl⟩

/-- Two states that differ in the cursor, the flag INITD and the buffers, and the first of two steps after an INIT. -/
theorem witness_InitHidesTheOldContext :
    ∃ s s' t : State, s.cur ≠ s'.cur ∧ s.Finished ∧ s'.Finished ∧ s.inputs = [] ∧ s'.inputs = [] ∧
      s.errIll = s'.errIll ∧ s.errNoinit = s'.errNoinit ∧ s.responses = s'.responses ∧
      runSteps (0 + 1) { s with port := initCommand ietfKey ietfNonce 1 :: [] } = .next t := by
  have decoded : decodeCommand (initCommand ietfKey ietfNonce 1) = .instr (.init ietfKey ietfNonce 1) := by decide +kernel
  have first : ∃ t, step { State.reset with port := [initCommand ietfKey ietfNonce 1] } = .next t :=
    ⟨_, step_accept _ rfl rfl rfl decoded rfl⟩
  obtain ⟨t, eq⟩ := first
  exact ⟨State.reset, serving 3, t, by decide, ⟨rfl, rfl⟩, ⟨rfl, rfl⟩, rfl, rfl, rfl, rfl, rfl,
    by rw [runSteps, eq]; rfl⟩

/-- Two states of equal control with different offered bytes, and their steps. -/
theorem witness_ControlIgnoresSecrets :
    (offering ready [xorbCommand 0x41]).SameControl { offering ready [xorbCommand 0x42] with ks := counting } := by
  constructor <;> rfl

theorem witness_InstancesShareNothing : [State.reset, ready][1]? = some ready := rfl

end Sys2Proof.Tests
end

/-! SUPPORT. Proofs of the statements about the state (10_state.md): what a step keeps, the two invariants, and what an INIT
hides. First the facts about single operations, then those about one step, then each invariant with the statements that
rest on it. -/

namespace Sys2Proof.Machine

open Sys2Proof

/-! ### Operations and views -/

/-- What a write leaves in the stored words of S depends on these only. -/
theorem writeS_ctx_congr {s s' : State} (h : s.ctx = s'.ctx) (i : Fin 16) (v : Word) :
    (s.writeS i v).ctx = (s'.writeS i v).ctx := by
  unfold State.writeS; split <;> simp [h]

/-- What the increment leaves in the stored words of S depends on these only (R90). -/
theorem advanceCounter_ctx_congr {s s' : State} (h : s.ctx = s'.ctx) : s.advanceCounter.ctx = s'.advanceCounter.ctx := by
  have low : (s.writeS 12 (s.readS 12 + 1#32)).ctx = (s'.writeS 12 (s'.readS 12 + 1#32)).ctx := by
    rw [readS_congr h, writeS_ctx_congr h]
  simp only [State.advanceCounter, readS_congr low]
  split
  · exact writeS_ctx_congr low 13 _
  · exact low

theorem readS_constants (s : State) :
    s.readS 0 = 0x61707865 ∧ s.readS 1 = 0x3320646E ∧ s.readS 2 = 0x79622D32 ∧ s.readS 3 = 0x6B206574 :=
  ⟨rfl, rfl, rfl, rfl⟩

theorem writeS_hardwired (s : State) (i : Fin 16) (v : Word) (h : i.val < 4) : s.writeS i v = s := by
  rw [State.writeS, dif_pos h]

/-- STATUS bit by bit (R36). -/
theorem status_getLsbD (s : State) (b : Nat) :
    s.status.getLsbD b = [s.ready, s.initd, s.errIll, s.errNoinit].getD b false := by
  unfold State.status
  change BitVec.getLsbD (w := 12 + (1 + (1 + (1 + 1)))) _ b = _
  simp only [BitVec.getLsbD_append, BitVec.getLsbD_ofBool]
  rcases b with _ | _ | _ | _ | b <;> simp

/-- STATUS of an idle CORE with no context and no error (R36, R39). -/
theorem status_eq_one {s : State} (seq : s.seq = .idle) (initd : s.initd = false) (errIll : s.errIll = false)
    (errNoinit : s.errNoinit = false) : s.status = 0x0001#16 := by
  simp [State.status, State.ready, seq, initd, errIll, errNoinit]

/-- The halves of a counter put together again after an addition to the high one (R28). -/
theorem append_add_high (n : Word) (c : BitVec 64) : (n + ctrHigh c) ++ ctrLow c = c + n.setWidth 64 <<< 32 := by
  have high : (ctrHigh c).toNat = c.toNat / 2 ^ 32 := by
    rw [ctrHigh, BitVec.extractLsb'_toNat, Nat.shiftRight_eq_div_pow]; omega
  have low : (ctrLow c).toNat = c.toNat % 2 ^ 32 := by rw [ctrLow, BitVec.extractLsb'_toNat, Nat.shiftRight_zero]
  have shifted : (n.setWidth 64 <<< 32).toNat = n.toNat * 2 ^ 32 % 2 ^ 64 := by
    rw [BitVec.toNat_shiftLeft, BitVec.toNat_setWidth_of_le (by decide), Nat.shiftLeft_eq]
  apply BitVec.eq_of_toNat_eq
  rw [BitVec.toNat_append, Nat.shiftLeft_eq, Nat.mul_comm, ← Nat.two_pow_add_eq_or_of_lt (ctrLow c).isLt,
    BitVec.toNat_add, BitVec.toNat_add, high, low, shifted]
  omega

/-- BC of a state that holds the context of an INIT (R28, R101). -/
theorem bc_of_contextWords {s : State} {key : Key} {nonce : Nonce} {c : BitVec 64} (h : s.ctx = contextWords key nonce c) :
    s.bc = (nonceWord nonce 0 + ctrHigh c) ++ ctrLow c := by
  simp [State.bc, counterOf, words_get_nat, State.readS, h, contextWords]

/-- `K + 1` does not wrap at the values of `K` that R32 has. -/
theorem toNat_seqK_succ {k : BitVec 5} (h : k.toNat < 20) : (k + 1#5).toNat = k.toNat + 1 := by
  rw [BitVec.toNat_add, BitVec.toNat_ofNat]; omega

/-- The rows of R32's table. -/
theorem legal_cases {q : Seq} (h : q.legal) :
    q = .idle ∨ (q.ph = .round ∧ q.k.toNat < 20) ∨ q = { ph := .feedfwd, k := 0#5 } ∨ q = { ph := .ctrinc, k := 0#5 } := by
  obtain ⟨ph, k⟩ := q
  cases ph <;> simpa [Seq.legal] using h

/-- One more half-round: a column one after evenly many (R87). -/
theorem halfRounds_succ_even {n : Nat} (h : n % 2 = 0) (x : Words) :
    halfRounds (n + 1) x = halfRound colLanes (halfRounds n x) := by rw [halfRounds, if_pos h]

/-- One more half-round: a diagonal one after oddly many (R87). -/
theorem halfRounds_succ_odd {n : Nat} (h : n % 2 = 1) (x : Words) :
    halfRounds (n + 1) x = halfRound diagLanes (halfRounds n x) := by rw [halfRounds, if_neg (by omega)]

/-- Two half-rounds, the column one first, are a double round (R87, R88). -/
theorem halfRounds_two_mul (n : Nat) (x : Words) : halfRounds (2 * n) x = doubleRounds n x := by
  induction n with
  | zero => rfl
  | succ n ih =>
    rw [Nat.mul_succ, halfRounds_succ_odd (by omega), halfRounds_succ_even (by omega), ih]; rfl

/-- The words before an increment are those after it with their counter set back by one (R41 (3), R90). -/
theorem withCounter_incCounter_pred (w : Words) : withCounter (incCounter w) (counterOf (incCounter w) - 1#64) = w := by
  have pred : counterOf (incCounter w) - 1#64 = counterOf w := by rw [counterOf_incCounter, BitVec.add_sub_cancel]
  rw [pred, withCounter_congr (incCounter_get_other w), withCounter_counterOf]

/-! ### One step -/

/-- Every case of `StepCase` is a step: the converse of `step_cases`. -/
theorem step_of_case {s t : State} (noReset : s.resetAsserted = false) (h : StepCase s.receive t) : step s = .next t := by
  rw [step_of_noReset noReset]
  generalize s.receive = u at h ⊢
  cases h with
  | wait idle port eq => rw [selectStep_idle idle, eq]; simp [State.selectCommand, port]
  | init idle c later port key nonce ctr dec eq =>
    rw [selectStep_idle idle, eq]; simp only [State.selectCommand, port, dec]; rfl
  | serve idle c later port d dec initd cur eq | start idle c later port d dec initd cur eq =>
    rw [selectStep_idle idle, eq]; simp [State.selectCommand, port, dec, exec, execXorb, initd, cur]
  | noContext idle c later port d dec initd eq =>
    rw [selectStep_idle idle, eq]; simp [State.selectCommand, port, dec, exec, execXorb, initd]
  | illegal idle c later port r dec eq => rw [selectStep_idle idle, eq]; simp [State.selectCommand, port, dec]
  | colround ph lt even eq =>
    have dec := decodeSequencer_round u.seq.k lt
    rw [if_pos even, ← ph] at dec
    rw [selectStep_micro dec, eq, ← ph]; rfl
  | diaground ph lt odd eq =>
    have dec := decodeSequencer_round u.seq.k lt
    rw [if_neg (by omega), ← ph] at dec
    rw [selectStep_micro dec, eq, ← ph]; rfl
  | feedfwd seq eq => rw [selectStep_micro (seq ▸ decodeSequencer_feedfwd), eq]; rfl
  | ctrinc seq eq => rw [selectStep_micro (seq ▸ decodeSequencer_ctrinc), eq]; exact execCtrinc_eq u

/-- A step without reset, with a next state, is one of the cases of `StepCase`. -/
theorem stepCase_of_step {s t : State} (noReset : s.resetAsserted = false) (h : step s = .next t) :
    StepCase s.receive t := by
  rcases step_cases h with ⟨reset, -⟩ | ⟨-, taken⟩
  · simp [noReset] at reset
  · exact taken

/-- In a step of a block PEND is held, unless the step is CTRINC, which answers with it (R33, R103). -/
theorem StepCase.busy_pend {s t : State} (h : StepCase s t) (busy : s.seq.ph ≠ .idle) :
    if s.seq.ph = .ctrinc then t.responses = s.responses ++ [{ rsp := .ok, dout := s.pend ^^^ ksByte s.ks 0 }]
    else t.pend = s.pend := by
  cases h with
  | wait idle | init idle | serve idle | start idle | noContext idle | illegal idle => simp [idle] at busy
  | colround ph _ _ eq | diaground ph _ _ eq => simp [ph, eq]
  | feedfwd seq eq | ctrinc seq eq => simp [seq, eq]

/-- In every case an error flag is kept or set (R35). -/
theorem StepCase.flags_sticky {s t : State} (h : StepCase s t) :
    (s.errIll = true → t.errIll = true) ∧ (s.errNoinit = true → t.errNoinit = true) := by
  cases h <;> next eq => simp +contextual [eq]

/-- Where no INIT is accepted, the stored words of S stay, or CTRINC advances their counter (R41 (4), (5)). -/
theorem StepCase.ctx_eq {s t : State} (h : StepCase s t)
    (noInit : ∀ c later, s.seq = .idle → s.port = c :: later → c.cmd ≠ 0x0001) :
    t.ctx = if s.seq.ph = .ctrinc then s.advanceCounter.ctx else s.ctx := by
  cases h with
  | init idle c later port key nonce ctr dec =>
    exact absurd ((decodeCommand_init_iff c).1 ⟨key, nonce, ctr, dec⟩) (noInit c later idle port)
  | wait idle _ eq | serve idle _ _ _ _ _ _ _ eq | start idle _ _ _ _ _ _ _ eq | noContext idle _ _ _ _ _ _ eq
    | illegal idle _ _ _ _ _ eq => simp [idle, eq]
  | colround ph _ _ eq | diaground ph _ _ eq => simp [ph, eq]
  | feedfwd seq eq | ctrinc seq eq => simp [seq, eq]

/-- As `StepCase.ctx_eq`, of a whole step. -/
theorem step_ctx_of_noInit {s t : State} (noReset : s.resetAsserted = false) (h : step s = .next t)
    (noInit : ∀ c later, s.seq = .idle → s.receive.port = c :: later → c.cmd ≠ 0x0001) :
    t.ctx = if s.seq.ph = .ctrinc then s.advanceCounter.ctx else s.ctx := by
  have ctx := (stepCase_of_step noReset h).ctx_eq (by rwa [receive_seq])
  rwa [receive_seq, receive_ctx, advanceCounter_ctx_congr (receive_ctx s)] at ctx

/-- The flags play no part in the increment of the counter (R127). -/
theorem advanceCounter_setFlags (s : State) (a b : Bool) :
    State.advanceCounter { s with errIll := a, errNoinit := b } =
      { s.advanceCounter with errIll := a, errNoinit := b } := by
  have ctx : (State.advanceCounter { s with errIll := a, errNoinit := b }).ctx = s.advanceCounter.ctx :=
    advanceCounter_ctx_congr rfl
  rw [advanceCounter_eq, advanceCounter_eq s, ctx]

/-- An instruction answers the same whatever the flags are, but for the flags (R127). No meaning tests a flag, so each
branch is taken again; only CTRINC's goes through an operation, `advanceCounter`. -/
theorem exec_setFlags {i : Instr} {s t : State} (a b : Bool) (h : exec i s = .next t) :
    ∃ u, exec i { s with errIll := a, errNoinit := b } = .next u ∧
      u = { t with errIll := u.errIll, errNoinit := u.errNoinit } := by
  cases i with
  | init | colround | diaground | feedfwd => injection h with h; exact ⟨_, rfl, h ▸ rfl⟩
  | xorb d =>
    simp only [exec, execXorb] at h ⊢
    split_ifs at h ⊢ <;> injection h with h <;> exact ⟨_, rfl, h ▸ rfl⟩
  | ctrinc =>
    rw [exec, execCtrinc_eq] at h
    injection h with h
    exact ⟨_, execCtrinc_eq _, by rw [advanceCounter_setFlags, ← h]; rfl⟩

/-! ### The control invariant -/

/-- The input of a step reaches no register of the CORE, so it keeps the control invariant. -/
theorem receive_keeps_inv {s : State} (inv : s.Inv) : s.receive.Inv := by
  rw [receive_eq]; exact { inv with }

/-- What the control invariant asks of an idle CORE. -/
theorem inv_of_idle {s : State} (idle : s.seq = .idle) (cur_le : s.cur.toNat ≤ 64)
    (uninit_cur : s.initd = false → s.cur = 64#7) : s.Inv where
  cur_le := cur_le
  seq_legal := by simp [idle, Seq.legal]
  busy_cur busy := absurd (congrArg Seq.ph idle) busy
  busy_initd busy := absurd (congrArg Seq.ph idle) busy
  uninit_cur := uninit_cur

/-- What the control invariant asks of a CORE that makes a block. -/
theorem inv_of_block {s : State} (legal : s.seq.legal) (initd : s.initd = true) (cur : s.cur = 64#7) : s.Inv where
  cur_le := by simp [cur]
  seq_legal := legal
  busy_cur _ := cur
  busy_initd _ := initd
  uninit_cur _ := cur

theorem resetEvent_inv (s : State) : s.resetEvent.Inv := inv_of_idle rfl (by simp) fun _ => rfl

/-- The next half-round's value of SEQ is one of R32's. -/
theorem legal_round_succ {k : BitVec 5} (h : k.toNat < 19) : Seq.legal { ph := .round, k := k + 1#5 } := by
  simp only [Seq.legal, toNat_seqK_succ (Nat.lt_succ_of_lt h)]; omega

theorem StepCase.keeps_inv {s t : State} (h : StepCase s t) (inv : s.Inv) : t.Inv := by
  cases h with
  | wait idle port eq => exact eq ▸ inv
  | init idle c later port key nonce ctr dec eq => exact inv_of_idle (by simp [eq, idle]) (by simp [eq]) (by simp [eq])
  | serve idle c later port d dec initd cur eq =>
    have next_cur : (s.cur + 1#7).toNat ≤ 64 := by rw [BitVec.toNat_add, BitVec.toNat_ofNat]; omega
    exact inv_of_idle (by simp [eq, idle]) (by simpa [eq] using next_cur) (by simp [eq, initd])
  | start idle c later port d dec initd cur eq =>
    exact inv_of_block (by simp [eq, Seq.legal]) (by simp [eq, initd]) (by simp [eq, cur])
  | noContext idle _ _ _ _ _ _ eq | illegal idle _ _ _ _ _ eq =>
    exact inv_of_idle (by simp [eq, idle]) (by simpa [eq] using inv.cur_le) (by simpa [eq] using inv.uninit_cur)
  | colround ph lt even eq =>
    have busy : s.seq.ph ≠ .idle := by simp [ph]
    have legal : Seq.legal { ph := .round, k := s.seq.k + 1#5 } := legal_round_succ (by omega)
    exact inv_of_block (by simpa [eq] using legal) (by simp [eq, inv.busy_initd busy]) (by simp [eq, inv.busy_cur busy])
  | diaground ph lt odd eq =>
    have busy : s.seq.ph ≠ .idle := by simp [ph]
    refine inv_of_block ?_ (by simp [eq, inv.busy_initd busy]) (by simp [eq, inv.busy_cur busy])
    rw [eq]
    dsimp only
    split
    · next below => exact legal_round_succ below
    · rfl
  | feedfwd seq eq =>
    have busy : s.seq.ph ≠ .idle := by simp [seq]
    exact inv_of_block (by simp [eq, Seq.legal]) (by simp [eq, inv.busy_initd busy]) (by simp [eq, inv.busy_cur busy])
  | ctrinc seq eq =>
    have busy : s.seq.ph ≠ .idle := by simp [seq]
    exact inv_of_idle (by simp [eq]) (by simp [eq]) (by simp [eq, inv.busy_initd busy])

/-- Settles O46, by the cases of a step. -/
theorem stepKeepsControlInvariant : Obligations.StepKeepsControlInvariant := by
  intro s t inv h
  rcases step_cases h with ⟨-, rfl⟩ | ⟨-, taken⟩
  · exact resetEvent_inv _
  · exact taken.keeps_inv (receive_keeps_inv inv)

/-- From a state that meets the control invariant some case of a step is open: SEQ selects a micro-operation, or the CORE
is idle and CUR is one that XORB can use. -/
theorem exists_stepCase_of_inv {s : State} (inv : s.Inv) : ∃ t, StepCase s t := by
  rcases legal_cases inv.seq_legal with idle | ⟨ph, lt⟩ | seq | seq
  · cases port : s.port with
    | nil => exact ⟨_, .wait idle port rfl⟩
    | cons c later =>
      rcases decodeCommand_cases c with ⟨key, nonce, ctr, dec⟩ | ⟨d, dec⟩ | ⟨r, dec⟩
      · exact ⟨_, .init idle c later port key nonce ctr dec rfl⟩
      · cases initd : s.initd with
        | false => exact ⟨_, .noContext idle c later port d dec initd rfl⟩
        | true =>
          rcases Nat.lt_or_eq_of_le inv.cur_le with below | full
          · exact ⟨_, .serve idle c later port d dec initd below rfl⟩
          · exact ⟨_, .start idle c later port d dec initd (BitVec.eq_of_toNat_eq full) rfl⟩
      · exact ⟨_, .illegal idle c later port r dec rfl⟩
  · rcases Nat.mod_two_eq_zero_or_one s.seq.k.toNat with even | odd
    · exact ⟨_, .colround ph lt even rfl⟩
    · exact ⟨_, .diaground ph lt odd rfl⟩
  · exact ⟨_, .feedfwd seq rfl⟩
  · exact ⟨_, .ctrinc seq rfl⟩

/-- Settles O47: reset always steps, and without it a case of a step is open. -/
theorem invariantStatesAreSafe : Obligations.InvariantStatesAreSafe := by
  intro s inv
  cases reset : s.resetAsserted with
  | true => exact ⟨_, step_of_reset reset⟩
  | false =>
    obtain ⟨t, taken⟩ := exists_stepCase_of_inv (receive_keeps_inv inv)
    exact ⟨t, step_of_case reset taken⟩

/-! ### The data invariant -/

/-- The input of a step reaches no register of the CORE, so it keeps the data invariant. -/
theorem receive_keeps_dataInv {s : State} (data : s.DataInv) : s.receive.DataInv := by
  rw [receive_eq]; exact { data with }

/-- What the data invariant asks of an idle CORE. -/
theorem dataInv_of_idle {s : State} (idle : s.seq = .idle)
    (buffered : s.initd = true → s.cur.toNat < 64 → s.ks = blockKs (withCounter s.words (s.bc - 1#64))) :
    s.DataInv := by
  constructor <;> simp only [idle, reduceCtorEq, false_implies]
  exact fun _ => buffered

/-- What the data invariant asks of a CORE before half-round K. -/
theorem dataInv_of_round {s : State} {k : BitVec 5} (seq : s.seq = { ph := .round, k := k })
    (x : s.x = halfRounds k.toNat s.words) : s.DataInv := by
  constructor <;> simp only [seq, reduceCtorEq, false_implies]
  exact fun _ => x

/-- What the data invariant asks of a CORE before the feed-forward. -/
theorem dataInv_of_feedfwd {s : State} (ph : s.seq.ph = .feedfwd) (x : s.x = doubleRounds 10 s.words) : s.DataInv := by
  constructor <;> simp only [ph, reduceCtorEq, false_implies]
  exact fun _ => x

/-- What the data invariant asks of a CORE before the counter increment. -/
theorem dataInv_of_ctrinc {s : State} (ph : s.seq.ph = .ctrinc) (ks : s.ks = blockKs s.words) : s.DataInv := by
  constructor <;> simp only [ph, reduceCtorEq, false_implies]
  exact fun _ => ks

/-- An idle CORE that keeps S, KS and INITD, and moves no cursor back into the buffer, keeps the data invariant. -/
theorem dataInv_of_idle_frame {s t : State} (data : s.DataInv) (idle : s.seq = .idle) (idle' : t.seq = .idle)
    (ctx : t.ctx = s.ctx) (ks : t.ks = s.ks) (initd : t.initd = s.initd)
    (cur : t.cur.toNat < 64 → s.cur.toNat < 64) : t.DataInv :=
  dataInv_of_idle idle' fun context buffered => by
    rw [ks, words_congr ctx, bc_congr ctx]
    exact data.idle_ks (congrArg Seq.ph idle) (initd ▸ context) (cur buffered)

theorem resetEvent_dataInv (s : State) : s.resetEvent.DataInv := dataInv_of_idle rfl fun context => by cases context

theorem StepCase.keeps_dataInv {s t : State} (h : StepCase s t) (data : s.DataInv) : t.DataInv := by
  cases h with
  | wait idle port eq => exact eq ▸ data
  | init idle c later port key nonce ctr dec eq => exact dataInv_of_idle (by simp [eq, idle]) (by simp [eq])
  | serve idle c later port d dec initd cur eq =>
    exact dataInv_of_idle_frame data idle (by simp [eq, idle]) (by simp [eq]) (by simp [eq]) (by simp [eq]) fun _ => cur
  | start idle c later port d dec initd cur eq =>
    have words : t.words = s.words := words_congr (by simp [eq])
    exact dataInv_of_round (k := 0#5) (by simp [eq]) (by rw [words, eq]; rfl)
  | noContext idle _ _ _ _ _ _ eq | illegal idle _ _ _ _ _ eq =>
    exact dataInv_of_idle_frame data idle (by simp [eq, idle]) (by simp [eq]) (by simp [eq]) (by simp [eq]) (by simp [eq])
  | colround ph lt even eq =>
    have words : t.words = s.words := words_congr (by simp [eq])
    refine dataInv_of_round (k := s.seq.k + 1#5) (by rw [eq]) ?_
    rw [words, toNat_seqK_succ lt, halfRounds_succ_even even, ← data.round_x ph, eq]
  | diaground ph lt odd eq =>
    have words : t.words = s.words := words_congr (by simp [eq])
    have mixed : t.x = halfRounds (s.seq.k.toNat + 1) t.words := by
      rw [words, halfRounds_succ_odd odd, ← data.round_x ph, eq]
    by_cases below : s.seq.k.toNat < 19
    · refine dataInv_of_round (k := s.seq.k + 1#5) (by simp [eq, below]) ?_
      rw [toNat_seqK_succ lt, mixed]
    · have last : s.seq.k.toNat + 1 = 2 * 10 := by omega
      rw [last, halfRounds_two_mul] at mixed
      exact dataInv_of_feedfwd (by simp [eq, below]) mixed
  | feedfwd seq eq =>
    have words : t.words = s.words := words_congr (by simp [eq])
    refine dataInv_of_ctrinc (by simp [eq]) ?_
    rw [words, blockKs, ← data.feedfwd_x (congrArg Seq.ph seq), eq]
  | ctrinc seq eq =>
    have words : t.words = incCounter s.words := by
      rw [← words_advanceCounter]; exact words_congr (by simp [eq])
    refine dataInv_of_idle (by simp [eq]) fun _ _ => ?_
    rw [State.bc, words, withCounter_incCounter_pred, ← data.ctrinc_ks (congrArg Seq.ph seq)]
    simp [eq]

/-- Settles O48, by the cases of a step; the control invariant is not needed for it. -/
theorem stepKeepsBlockData : Obligations.StepKeepsBlockData := by
  intro s t _ data h
  rcases step_cases h with ⟨-, rfl⟩ | ⟨-, taken⟩
  · exact resetEvent_dataInv _
  · exact taken.keeps_dataInv (receive_keeps_dataInv data)

/-! ### Two runs after an INIT -/

/-- Two COREs that the host cannot tell apart: they agree on all that it sees and on all that a later answer can depend on.
The context counts only where there is one or a block is being made, X and PEND only while a block is made, and KS only
where it holds a block that has still to be answered from (R37, R59). -/
structure State.Alike (s s' : State) : Prop where
  cur : s.cur = s'.cur
  seq : s.seq = s'.seq
  initd : s.initd = s'.initd
  errIll : s.errIll = s'.errIll
  errNoinit : s.errNoinit = s'.errNoinit
  port : s.port = s'.port
  inputs : s.inputs = s'.inputs
  responses : s.responses = s'.responses
  ctx : s.initd = true ∨ s.seq.ph ≠ .idle → s.ctx = s'.ctx
  x : s.seq.ph ≠ .idle → s.x = s'.x
  pend : s.seq.ph ≠ .idle → s.pend = s'.pend
  ks : s.cur ≠ 64#7 ∨ s.seq.ph = .ctrinc → s.ks = s'.ks

theorem observe_of_alike {s s' : State} (h : s.Alike s') : s.observe = s'.observe := by
  simp only [State.observe, State.status, State.ready, h.responses, h.errNoinit, h.errIll, h.initd, h.seq]

theorem resetAsserted_of_alike {s s' : State} (h : s.Alike s') : s.resetAsserted = s'.resetAsserted := by
  simp only [State.resetAsserted, h.inputs]

/-- The same input arrives at both. -/
theorem receive_alike {s s' : State} (h : s.Alike s') : s.receive.Alike s'.receive := by
  unfold State.receive
  rw [← h.inputs]
  cases s.inputs with
  | nil => exact h
  | cons input later => exact { h with port := by simp [h.port], inputs := rfl }

/-- After a reset nothing of what the two held before it counts. -/
theorem resetEvent_alike {s s' : State} (h : s.Alike s') : s.resetEvent.Alike s'.resetEvent := by
  constructor <;> simp [h.port, h.inputs, h.responses]

/-- A half-round of both, to the same value of SEQ. -/
theorem halfRound_alike {s s' : State} (h : s.Alike s') (busy : s.seq.ph ≠ .idle) (lanes : List Lane) {q : Seq}
    (notLast : q.ph ≠ .ctrinc) :
    State.Alike { s with x := halfRound lanes s.x, seq := q } { s' with x := halfRound lanes s'.x, seq := q } := by
  constructor
  case ks => simpa [notLast] using fun loaded => h.ks (.inl loaded)
  all_goals simp [h.cur, h.initd, h.errIll, h.errNoinit, h.port, h.inputs, h.responses, h.ctx (.inr busy), h.x busy,
    h.pend busy]

/-- The state an accepted INIT leaves (R101). -/
def State.afterInit (s : State) (later : List Command) (key : Key) (nonce : Nonce) (ctr : BitVec 64) : State :=
  { s with port := later, ctx := contextWords key nonce ctr, cur := 64#7, initd := true,
           responses := s.responses ++ [{ rsp := .ok, dout := 0#8 }] }

/-- After an INIT nothing of the context, the cursor and the buffers from before it counts (R101). -/
theorem afterInit_alike {s s' : State} (idle : s.seq = .idle) (idle' : s'.seq = .idle) (inputs : s.inputs = s'.inputs)
    (errIll : s.errIll = s'.errIll) (errNoinit : s.errNoinit = s'.errNoinit) (responses : s.responses = s'.responses)
    (later : List Command) (key : Key) (nonce : Nonce) (ctr : BitVec 64) :
    (s.afterInit later key nonce ctr).Alike (s'.afterInit later key nonce ctr) := by
  constructor <;> simp [State.afterInit, idle, idle', inputs, errIll, errNoinit, responses]

/-- Two COREs that the host cannot tell apart take steps of the same case, to two that it cannot tell apart. -/
theorem stepCase_of_alike {s s' t : State} (h : s.Alike s') (taken : StepCase s t) :
    ∃ t', StepCase s' t' ∧ t.Alike t' := by
  cases taken with
  | wait idle port eq => exact ⟨s', .wait (h.seq ▸ idle) (h.port ▸ port) rfl, eq ▸ h⟩
  | init idle c later port key nonce ctr dec eq =>
    refine ⟨_, .init (h.seq ▸ idle) c later (h.port ▸ port) key nonce ctr dec rfl, eq ▸ ?_⟩
    exact afterInit_alike idle (h.seq ▸ idle) h.inputs h.errIll h.errNoinit h.responses later key nonce ctr
  | serve idle c later port d dec initd cur eq =>
    have ks : s.ks = s'.ks := h.ks (.inl (by rintro full; simp [full] at cur))
    refine ⟨_, .serve (h.seq ▸ idle) c later (h.port ▸ port) d dec (h.initd ▸ initd) (h.cur ▸ cur) rfl, eq ▸ ?_⟩
    constructor <;> simp [idle, ← h.seq, ← h.cur, ← h.initd, h.errIll, h.errNoinit, h.inputs, h.responses,
      h.ctx (.inl initd), ks]
  | start idle c later port d dec initd cur eq =>
    have ctx : s.ctx = s'.ctx := h.ctx (.inl initd)
    refine ⟨_, .start (h.seq ▸ idle) c later (h.port ▸ port) d dec (h.initd ▸ initd) (h.cur ▸ cur) rfl, eq ▸ ?_⟩
    constructor
    case x => intro _; rw [startBlock_x, startBlock_x]; exact words_congr ctx
    all_goals simp [cur, ← h.cur, h.initd, h.errIll, h.errNoinit, h.inputs, h.responses, ctx]
  | noContext idle c later port d dec initd eq =>
    refine ⟨_, .noContext (h.seq ▸ idle) c later (h.port ▸ port) d dec (h.initd ▸ initd) rfl, eq ▸ ?_⟩
    constructor
    case ks => simpa [idle] using h.ks
    all_goals simp [idle, initd, ← h.seq, h.cur, ← h.initd, h.errIll, h.inputs, h.responses]
  | illegal idle c later port r dec eq =>
    refine ⟨_, .illegal (h.seq ▸ idle) c later (h.port ▸ port) r dec rfl, eq ▸ ?_⟩
    constructor
    case ctx => simpa [idle] using h.ctx
    case ks => simpa [idle] using h.ks
    all_goals simp [idle, ← h.seq, h.cur, h.initd, h.errNoinit, h.inputs, h.responses]
  | colround ph lt even eq =>
    refine ⟨_, .colround (h.seq ▸ ph) (h.seq ▸ lt) (h.seq ▸ even) rfl, eq ▸ ?_⟩
    rw [← h.seq]
    exact halfRound_alike h (by simp [ph]) colLanes (by simp)
  | diaground ph lt odd eq =>
    refine ⟨_, .diaground (h.seq ▸ ph) (h.seq ▸ lt) (h.seq ▸ odd) rfl, eq ▸ ?_⟩
    rw [← h.seq]
    exact halfRound_alike h (by simp [ph]) diagLanes (by split <;> simp)
  | feedfwd seq eq =>
    have busy : s.seq.ph ≠ .idle := by simp [seq]
    have ctx : s.ctx = s'.ctx := h.ctx (.inr busy)
    refine ⟨_, .feedfwd (h.seq ▸ seq) rfl, eq ▸ ?_⟩
    constructor <;> simp [h.cur, h.initd, h.errIll, h.errNoinit, h.port, h.inputs, h.responses, ctx, h.x busy,
      h.pend busy, words_congr ctx]
  | ctrinc seq eq =>
    have busy : s.seq.ph ≠ .idle := by simp [seq]
    have ks : s.ks = s'.ks := h.ks (.inr (by simp [seq]))
    have ctx : s.advanceCounter.ctx = s'.advanceCounter.ctx := advanceCounter_ctx_congr (h.ctx (.inr busy))
    refine ⟨_, .ctrinc (h.seq ▸ seq) rfl, eq ▸ ?_⟩
    constructor <;> simp [h.initd, h.errIll, h.errNoinit, h.port, h.inputs, h.responses, h.pend busy, ks, ctx]

theorem step_of_alike {s s' t : State} (h : s.Alike s') (stepped : step s = .next t) :
    ∃ t', step s' = .next t' ∧ t.Alike t' := by
  rcases step_cases stepped with ⟨reset, rfl⟩ | ⟨noReset, taken⟩
  · exact ⟨_, step_of_reset (resetAsserted_of_alike h ▸ reset), resetEvent_alike (receive_alike h)⟩
  · obtain ⟨t', taken', alike⟩ := stepCase_of_alike (receive_alike h) taken
    exact ⟨t', step_of_case (resetAsserted_of_alike h ▸ noReset) taken', alike⟩

theorem runSteps_succ {n : Nat} {s u : State} (h : step s = .next u) : runSteps (n + 1) s = runSteps n u := by
  rw [runSteps, h]

/-- A run of `n + 1` steps with a next state is a step and a run of `n`. -/
theorem exists_step_of_runSteps_succ {n : Nat} {s t : State} (h : runSteps (n + 1) s = .next t) :
    ∃ u, step s = .next u ∧ runSteps n u = .next t := by
  cases stepped : step s with
  | next u => exact ⟨u, rfl, runSteps_succ stepped ▸ h⟩
  | fault f => rw [runSteps, stepped] at h; cases h
  | refused r => rw [runSteps, stepped] at h; cases h

theorem runSteps_of_alike {n : Nat} {s s' t : State} (h : s.Alike s') (ran : runSteps n s = .next t) :
    ∃ t', runSteps n s' = .next t' ∧ t.Alike t' := by
  induction n generalizing s s' with
  | zero => injection ran with ran; exact ⟨s', rfl, ran ▸ h⟩
  | succ n ih =>
    obtain ⟨u, stepped, rest⟩ := exists_step_of_runSteps_succ ran
    obtain ⟨u', stepped', alike⟩ := step_of_alike h stepped
    rw [runSteps_succ stepped']
    exact ih alike rest

/-- An idle CORE with an INIT at the port, and nothing from outside, accepts it. -/
theorem step_init {s : State} {c : Command} {later : List Command} {key : Key} {nonce : Nonce} {ctr : BitVec 64}
    (idle : s.seq = .idle) (inputs : s.inputs = []) (port : s.port = c :: later)
    (dec : decodeCommand c = .instr (.init key nonce ctr)) : step s = .next (s.afterInit later key nonce ctr) := by
  have noReset : s.resetAsserted = false := by simp [State.resetAsserted, inputs]
  have received : s.receive = s := by simp [State.receive, inputs]
  exact step_of_case noReset (by rw [received]; exact .init idle c later port key nonce ctr dec rfl)

/-- Settles O55: the INIT leaves two states that are `Alike`, every step keeps them so, and such states are observed alike.
Which operands the decoder reads from the payload plays no part. -/
theorem initHidesTheOldContext : Obligations.InitHidesTheOldContext := by
  intro s s' key nonce ctr commands n t finished finished' inputs inputs' errIll errNoinit responses ran
  obtain ⟨key₁, nonce₁, ctr₁, dec⟩ := (decodeCommand_init_iff (initCommand key nonce ctr)).2 rfl
  have first := step_init (s := { s with port := initCommand key nonce ctr :: commands }) finished.idle inputs rfl dec
  have first' := step_init (s := { s' with port := initCommand key nonce ctr :: commands }) finished'.idle inputs' rfl dec
  rw [runSteps_succ first] at ran
  rw [runSteps_succ first']
  have alike := afterInit_alike (s := { s with port := initCommand key nonce ctr :: commands })
    (s' := { s' with port := initCommand key nonce ctr :: commands }) finished.idle finished'.idle
    (inputs.trans inputs'.symm) errIll errNoinit responses commands key₁ nonce₁ ctr₁
  obtain ⟨t', ran', alike'⟩ := runSteps_of_alike alike ran
  exact ⟨t', ran', observe_of_alike alike'⟩

/-! ### The block counter, PEND, the error flags and the context -/

/-- Settles O25: the context's halves of BC, put together. -/
theorem initCounterIsShiftedByNonce : Obligations.InitCounterIsShiftedByNonce := by
  intro key nonce ctr s t h
  injection h with h
  have ctx : t.ctx = contextWords key nonce ctr := by rw [← h, respond_ctx]
  rw [bc_of_contextWords ctx, append_add_high]
  rfl

/-- Settles O36: CTRINC's increment is one of BC, and its completion of the XORB leaves S. -/
theorem ctrincAdvancesTheBlockCounter : Obligations.CtrincAdvancesTheBlockCounter := by
  intro s t h
  rw [exec, execCtrinc_eq] at h
  injection h with h
  rw [← bc_advanceCounter, ← h]
  exact bc_congr (completeXorb_ctx _)

/-- Settles O37, by the cases of a busy step. -/
theorem pendingByteIsHeldUntilAnswered : Obligations.PendingByteIsHeldUntilAnswered := by
  intro s t noReset busy h
  have held := (stepCase_of_step noReset h).busy_pend (by rwa [receive_seq])
  simp only [receive_seq, receive_responses, receive_pend, receive_ks] at held
  exact held

/-- Settles O42: no case of a step clears a flag, and no instruction tests one. -/
theorem errorFlagsAreSticky : Obligations.ErrorFlagsAreSticky := by
  refine ⟨fun s t noReset h => ?_, fun i s t a b h => exec_setFlags a b h⟩
  simpa using (stepCase_of_step noReset h).flags_sticky

/-- Settles O43: the increment of CTRINC writes the counter's two words only. -/
theorem contextChangesOnlyAtInit : Obligations.ContextChangesOnlyAtInit := by
  intro s t noReset h noInit i ne12 ne13
  have ctx := step_ctx_of_noInit noReset h noInit
  split at ctx
  · rw [readS_congr ctx, readS_advanceCounter]; simp [ne12, ne13]
  · exact readS_congr ctx i

/-- Settles O44: BC is read from the stored words of S, which only CTRINC's increment changes. -/
theorem blockCounterCountsBlocks : Obligations.BlockCounterCountsBlocks := by
  intro s t noReset h noInit
  have ctx := step_ctx_of_noInit noReset h noInit
  by_cases ctrinc : s.seq.ph = .ctrinc
  · rw [if_pos ctrinc] at ctx ⊢; rw [bc_congr ctx, bc_advanceCounter]
  · rw [if_neg ctrinc] at ctx ⊢; exact bc_congr ctx

/-! ### Fixed values, views and reset -/

/-- Settles O4, by the four phases and the 32 values of K. -/
theorem sequencerValuesSelectMicroOperations : Obligations.SequencerValuesSelectMicroOperations := by
  rintro ⟨ph, k⟩
  cases ph <;> revert k <;> decide

/-- Settles O14. -/
theorem constantsAreHardwired : Obligations.ConstantsAreHardwired := by
  refine ⟨readS_constants, writeS_hardwired, fun s => ?_⟩
  obtain ⟨h0, h1, h2, h3⟩ := readS_constants s
  rw [h0, h1, h2, h3]
  decide

/-- Settles O15, from STATUS bit by bit. -/
theorem statusFields : Obligations.StatusFields := by
  intro s
  refine ⟨?_, status_getLsbD s 1, status_getLsbD s 2, status_getLsbD s 3, fun b above => ?_⟩
  · rw [status_getLsbD]; simp [State.ready]
  · rw [status_getLsbD]; exact List.getD_eq_default _ _ above

/-- Settles O22: the step is the reset event. -/
theorem resetSetsTheState : Obligations.ResetSetsTheState := by
  intro s reset
  exact ⟨_, step_of_reset reset, rfl, rfl, rfl, rfl, rfl, fun i => readS_const _ _ i.isLt, status_eq_one rfl rfl rfl rfl,
    receive_responses s, rfl, rfl⟩

/-- Settles O23. -/
theorem freshInstanceState : Obligations.FreshInstanceState := by
  obtain ⟨h0, h1, h2, h3⟩ := readS_constants State.reset
  exact ⟨h0, h1, h2, h3, rfl, by decide, rfl, rfl, rfl, status_eq_one rfl rfl rfl rfl⟩

/-- Settles O31: INITD is 1 and CUR is past both of XORB's ranges. -/
theorem xorbStopsOnUnreachableCursor : Obligations.XorbStopsOnUnreachableCursor := by
  intro d s initd above
  have notFull : s.cur ≠ 64#7 := by rintro full; simp [full] at above
  rw [exec, execXorb, if_neg (by simp [initd]), if_neg (by omega), if_neg notFull]

/-- Settles O45: an idle CORE with no context and CUR at 64 meets both. -/
theorem freshInstanceMeetsInvariants : Obligations.FreshInstanceMeetsInvariants :=
  ⟨inv_of_idle rfl (by decide) fun _ => rfl, dataInv_of_idle rfl fun context => by cases context⟩

end Sys2Proof.Machine

/-! SUPPORT. Proofs of the statements about bytes and words (20_memory.md): how four bytes make a word, which bits of a word
a byte of the block is, and that an INIT leaves nothing for an equal one to change. -/

namespace Sys2Proof.Machine

open Sys2Proof

/-! ### Packing and serialising -/

/-- A byte put above the bits in use adds its value at its place: the two parts share no bit (R42). -/
theorem toNat_or_byte_shiftLeft {w : Word} {n : Nat} (b : Byte) (below : w.toNat < 2 ^ n) (fits : n ≤ 24) :
    (w ||| b.setWidth 32 <<< n).toNat = w.toNat + b.toNat * 2 ^ n := by
  have noOverflow : b.toNat * 2 ^ n < 2 ^ 32 := by
    calc b.toNat * 2 ^ n < 2 ^ 8 * 2 ^ n := Nat.mul_lt_mul_of_pos_right b.isLt (Nat.two_pow_pos n)
      _ ≤ 2 ^ 8 * 2 ^ 24 := Nat.mul_le_mul_left _ (Nat.pow_le_pow_right (by decide) fits)
  have shifted : (b.setWidth 32 <<< n).toNat = 2 ^ n * b.toNat := by
    rw [BitVec.toNat_shiftLeft, BitVec.toNat_setWidth_of_le (by decide), Nat.shiftLeft_eq, Nat.mod_eq_of_lt noOverflow,
      Nat.mul_comm]
  rw [BitVec.toNat_or, shifted, Nat.or_comm, ← Nat.two_pow_add_eq_or_of_lt below, Nat.add_comm, Nat.mul_comm]

/-- Settles O8: each byte in turn lands above the bytes packed before it. -/
theorem packingIsLittleEndian : Obligations.PackingIsLittleEndian := by
  intro b0 b1 b2 b3
  have one : (b0.setWidth 32).toNat = b0.toNat := BitVec.toNat_setWidth_of_le (by decide)
  have two := toNat_or_byte_shiftLeft (w := b0.setWidth 32) (n := 8) b1 (by omega) (by decide)
  have three := toNat_or_byte_shiftLeft (n := 16) b2 (by rw [two]; omega) (by decide)
  have four := toNat_or_byte_shiftLeft (n := 24) b3 (by rw [three, two]; omega) (by decide)
  rw [pack4, four, three, two, one]

theorem serialise_length (ks : Words) : (serialise ks).length = 64 := by simp [serialise]

theorem serialise_getElem? (ks : Words) {n : Nat} (h : n < 64) : (serialise ks)[n]? = some (ksByte ks n) := by
  simp [serialise, h]

/-- The byte view at byte `j` of word `w` (R45). -/
theorem ksByte_of_word (ks : Words) (w : Fin 16) (j : Fin 4) :
    ksByte ks (4 * w.val + j.val) = ks[w].extractLsb' (8 * j.val) 8 := by
  have word : (4 * w.val + j.val) / 4 % 16 = w.val := by omega
  have place : (4 * w.val + j.val) % 4 = j.val := by omega
  simp [ksByte, word, place]

/-- Settles O9, from the byte view of each word. -/
theorem blockBytesAreLittleEndian : Obligations.BlockBytesAreLittleEndian := by
  refine fun ks => ⟨serialise_length ks, fun w j => ?_⟩
  rw [serialise_getElem? ks (by omega), ksByte_of_word]

/-! ### INIT twice -/

/-- An INIT of the context that is already loaded, with no byte of its stream used, only answers (R53, R101). -/
theorem exec_init_of_loaded {key : Key} {nonce : Nonce} {ctr : BitVec 64} {s : State}
    (ctx : s.ctx = contextWords key nonce ctr) (cur : s.cur = 64#7) (initd : s.initd = true) :
    exec (.init key nonce ctr) s = .next (s.respond .ok 0#8) := by
  rw [exec, execInit, ← ctx, ← cur, ← initd]

/-- Settles O26: the first INIT loads the context, so the second finds it loaded. -/
theorem initIsIdempotent : Obligations.InitIsIdempotent := by
  intro key nonce ctr s t u first second
  injection first with first
  have ctx : t.ctx = contextWords key nonce ctr := by rw [← first, respond_ctx]
  have cur : t.cur = 64#7 := by rw [← first, respond_cur]
  have initd : t.initd = true := by rw [← first, respond_initd]
  rw [exec_init_of_loaded ctx cur initd] at second
  injection second with second
  exact second.symm

end Sys2Proof.Machine

/-! SUPPORT. Proofs of the statements about the decoder and the encoder (30_encoding.md): PAYLOAD of an INIT bit by bit,
decoding against encoding in both directions, and the legal command words. -/

namespace Sys2Proof.Machine

open Sys2Proof

/-! ### The PAYLOAD of an INIT -/

/-- Bit `b` of byte `i` of a number made of bytes: the first byte is least significant. -/
theorem testBit_bytesValue {bs : List Byte} {i b : Nat} (hi : i < bs.length) (hb : b < 8) :
    (bytesValue bs).testBit (8 * i + b) = bs[i].getLsbD b := by
  induction bs generalizing i with
  | nil => cases hi
  | cons byte rest ih =>
    have split : bytesValue (byte :: rest) = 2 ^ 8 * bytesValue rest + byte.toNat := Nat.add_comm _ _
    rw [split, Nat.testBit_two_pow_mul_add _ byte.isLt]
    cases i with
    | zero => simp [hb, BitVec.testBit_toNat]
    | succ i =>
      rw [if_neg (by omega), show 8 * (i + 1) + b - 8 = 8 * i + b by omega, ih (Nat.lt_of_succ_lt_succ hi)]
      rfl

section initPayload
variable (key : Key) (nonce : Nonce) (ctr : BitVec 64)

/-- PAYLOAD of an INIT bit by bit: the key lowest, the nonce from bit 256 up, the counter on top (R65). -/
theorem initPayload_getLsbD (k : Nat) :
    (initPayload key nonce ctr).getLsbD k =
      if k < 256 then (bytesValue key.toList).testBit k
      else if k - 256 < 96 then (bytesValue nonce.toList).testBit (k - 256)
      else ctr.getLsbD (k - 256 - 96) := by
  unfold initPayload
  change BitVec.getLsbD (w := 64 + (96 + 256)) _ k = _
  simp only [BitVec.getLsbD_append, BitVec.getLsbD_ofNat]
  by_cases inKey : k < 256
  · simp [inKey, Nat.lt_of_lt_of_le inKey (show 256 ≤ 96 + 256 by decide)]
  · by_cases inNonce : k - 256 < 96
    · have below : k < 96 + 256 := by omega
      simp [inKey, inNonce, below]
    · have above : ¬ k < 96 + 256 := by omega
      simp [inKey, inNonce, above, Nat.sub_sub]

theorem initPayload_key_bit (i : Fin 32) {b : Nat} (hb : b < 8) :
    (initPayload key nonce ctr).getLsbD (8 * i.val + b) = key[i].getLsbD b := by
  rw [initPayload_getLsbD, if_pos (by omega), testBit_bytesValue (by simp) hb]
  simp

theorem initPayload_nonce_bit (j : Fin 12) {b : Nat} (hb : b < 8) :
    (initPayload key nonce ctr).getLsbD (256 + 8 * j.val + b) = nonce[j].getLsbD b := by
  rw [initPayload_getLsbD, if_neg (by omega), if_pos (by omega), Nat.add_assoc, Nat.add_sub_cancel_left,
    testBit_bytesValue (by simp) hb]
  simp

theorem initPayload_ctr_bit (b : Nat) : (initPayload key nonce ctr).getLsbD (352 + b) = ctr.getLsbD b := by
  rw [initPayload_getLsbD, if_neg (by omega), if_neg (by omega), Nat.sub_sub, Nat.add_sub_cancel_left]

end initPayload

theorem payloadKey_bit (p : BitVec 416) (i : Fin 32) {b : Nat} (hb : b < 8) :
    (payloadKey p)[i].getLsbD b = p.getLsbD (8 * i.val + b) := by
  simp [payloadKey, hb]

theorem payloadNonce_bit (p : BitVec 416) (j : Fin 12) {b : Nat} (hb : b < 8) :
    (payloadNonce p)[j].getLsbD b = p.getLsbD (256 + 8 * j.val + b) := by
  simp [payloadNonce, hb]

theorem payloadCtr_bit (p : BitVec 416) {b : Nat} (hb : b < 64) :
    (payloadCtr p).getLsbD b = p.getLsbD (352 + b) := by
  simp [payloadCtr, hb]

theorem payloadKey_initPayload (key : Key) (nonce : Nonce) (ctr : BitVec 64) :
    payloadKey (initPayload key nonce ctr) = key := by
  refine Vector.ext fun i hi => BitVec.eq_of_getLsbD_eq fun b hb => ?_
  exact (payloadKey_bit _ ⟨i, hi⟩ hb).trans (initPayload_key_bit key nonce ctr ⟨i, hi⟩ hb)

theorem payloadNonce_initPayload (key : Key) (nonce : Nonce) (ctr : BitVec 64) :
    payloadNonce (initPayload key nonce ctr) = nonce := by
  refine Vector.ext fun j hj => BitVec.eq_of_getLsbD_eq fun b hb => ?_
  exact (payloadNonce_bit _ ⟨j, hj⟩ hb).trans (initPayload_nonce_bit key nonce ctr ⟨j, hj⟩ hb)

theorem payloadCtr_initPayload (key : Key) (nonce : Nonce) (ctr : BitVec 64) :
    payloadCtr (initPayload key nonce ctr) = ctr :=
  BitVec.eq_of_getLsbD_eq fun b hb => (payloadCtr_bit _ hb).trans (initPayload_ctr_bit key nonce ctr b)

/-- The three operands are the whole of PAYLOAD (R65). -/
theorem initPayload_of_payload (p : BitVec 416) : initPayload (payloadKey p) (payloadNonce p) (payloadCtr p) = p := by
  refine BitVec.eq_of_getLsbD_eq fun k hk => ?_
  by_cases inKey : k < 256
  · have bit := initPayload_key_bit (payloadKey p) (payloadNonce p) (payloadCtr p) ⟨k / 8, by omega⟩
      (b := k % 8) (by omega)
    rw [payloadKey_bit _ _ (by omega)] at bit
    rwa [show 8 * (k / 8) + k % 8 = k by omega] at bit
  · by_cases inNonce : k < 352
    · have bit := initPayload_nonce_bit (payloadKey p) (payloadNonce p) (payloadCtr p) ⟨(k - 256) / 8, by omega⟩
        (b := k % 8) (by omega)
      rw [payloadNonce_bit _ _ (by omega)] at bit
      rwa [show 256 + 8 * ((k - 256) / 8) + k % 8 = k by omega] at bit
    · have bit := initPayload_ctr_bit (payloadKey p) (payloadNonce p) (payloadCtr p) (k - 352)
      rw [payloadCtr_bit _ (by omega)] at bit
      rwa [show 352 + (k - 352) = k by omega] at bit

/-! ### The decoder and the encoder -/

/-- What `CMD = 0x0001` decodes to (R63, R65). -/
theorem decodeCommand_init {c : Command} (h : c.cmd = 0x0001#16) :
    decodeCommand c = .instr (.init (payloadKey c.payload) (payloadNonce c.payload) (payloadCtr c.payload)) := by
  rw [decodeCommand, if_pos h]

theorem decodeCommand_initCommand (key : Key) (nonce : Nonce) (ctr : BitVec 64) :
    decodeCommand (initCommand key nonce ctr) = .instr (.init key nonce ctr) := by
  rw [decodeCommand_init rfl, initCommand, payloadKey_initPayload, payloadNonce_initPayload, payloadCtr_initPayload]

/-- A command decodes to an XORB exactly when its low byte is 0x02, and the byte is its upper one (R64). -/
theorem decodeCommand_xorb_iff (c : Command) (d : Byte) :
    decodeCommand c = .instr (.xorb d) ↔ c.cmd.extractLsb' 0 8 = 0x02#8 ∧ d = c.cmd.extractLsb' 8 8 := by
  unfold decodeCommand
  by_cases init : c.cmd = 0x0001#16
  · simp [init]
  · by_cases xorb : c.cmd.extractLsb' 0 8 = 0x02#8 <;> simp [init, xorb, cmdData, eq_comm]

/-- Settles O5, by the rows of the opcode table. -/
theorem encodingsDecodeBack : Obligations.EncodingsDecodeBack := by
  intro i wf
  cases i with
  | init key nonce ctr => exact decodeCommand_initCommand key nonce ctr
  | xorb d => exact decodeCommand_xorb d
  | colround k =>
    obtain ⟨lt, even⟩ : k.toNat < 20 ∧ k.toNat % 2 = 0 := by simpa [Instr.wellFormed] using wf
    exact (decodeSequencer_round k lt).trans (by rw [if_pos even])
  | diaground k =>
    obtain ⟨lt, odd⟩ : k.toNat < 20 ∧ k.toNat % 2 = 1 := by simpa [Instr.wellFormed] using wf
    exact (decodeSequencer_round k lt).trans (by rw [if_neg (by omega)])
  | feedfwd => exact decodeSequencer_feedfwd
  | ctrinc => exact decodeSequencer_ctrinc

/-- Settles O3: bit by bit, from what `CMD = 0x0001` decodes to. -/
theorem initOperandsComeFromPayload : Obligations.InitOperandsComeFromPayload := fun payload =>
  ⟨_, _, _, decodeCommand_init rfl, fun i _ hb => payloadKey_bit payload i hb,
    fun j _ hb => payloadNonce_bit payload j hb, fun _ hb => payloadCtr_bit payload hb⟩

/-- A value of SEQ that decodes is the encoding of what it selects, which is well formed (R71). -/
theorem encode_of_decodeSequencer {w : BitVec 7} {i : Instr} (h : decodeSequencer w = .instr i) :
    i.wellFormed = true ∧ encode i = .sequencer w := by
  obtain ⟨q, rfl⟩ : ∃ q : Seq, q.word = w := ⟨_, seq_word_ofWord w⟩
  rcases decodeSequencer_cases q with
    ⟨-, dec⟩ | ⟨ph, lt, even, dec⟩ | ⟨ph, lt, odd, dec⟩ | ⟨rfl, dec⟩ | ⟨rfl, dec⟩ | dec <;> rw [h] at dec
  · cases dec
  · injection dec with dec
    exact dec ▸ ⟨by simp [Instr.wellFormed, lt, even], by simp [encode, Seq.word, ph, Phase.code]⟩
  · injection dec with dec
    exact dec ▸ ⟨by simp [Instr.wellFormed, lt, odd], by simp [encode, Seq.word, ph, Phase.code]⟩
  · injection dec with dec
    exact dec ▸ ⟨rfl, rfl⟩
  · injection dec with dec
    exact dec ▸ ⟨rfl, rfl⟩
  · cases dec

/-- The command of an XORB has the word it was decoded from (R64, R67). -/
theorem xorbCommand_cmd {c : Command} {d : Byte} (h : decodeCommand c = .instr (.xorb d)) :
    (xorbCommand d).cmd = c.cmd := by
  obtain ⟨low, rfl⟩ := (decodeCommand_xorb_iff c d).1 h
  change c.cmd.extractLsb' 8 8 ++ 0x02#8 = c.cmd
  rw [← low]
  exact (BitVec.extractLsb'_append_extractLsb'_eq_extractLsb' rfl).trans BitVec.extractLsb'_eq_self

/-- Settles O6, by what the two forms can decode to. -/
theorem decodedWordsEncodeBack : Obligations.DecodedWordsEncodeBack := by
  intro e i h
  cases e with
  | sequencer w => exact encode_of_decodeSequencer h
  | command c =>
    change decodeCommand c = .instr i at h
    rcases decodeCommand_cases c with ⟨key, nonce, ctr, dec⟩ | ⟨d, dec⟩ | ⟨r, dec⟩
    · have word : c.cmd = 0x0001#16 := (decodeCommand_init_iff c).1 ⟨key, nonce, ctr, dec⟩
      rw [decodeCommand_init word] at h
      injection h with h
      exact h ▸ ⟨rfl, _, rfl, word.symm, fun _ => initPayload_of_payload c.payload⟩
    · obtain rfl : i = .xorb d := by rw [h] at dec; injection dec
      have noInit : c.cmd ≠ 0x0001#16 := fun init => by rw [decodeCommand_init init] at dec; cases dec
      exact ⟨rfl, _, rfl, xorbCommand_cmd dec, fun init => absurd init noInit⟩
    · rw [h] at dec; cases dec

/-! ### The legal command words -/

/-- A command is rejected exactly when it is neither an INIT nor an XORB (R77). -/
theorem decodeCommand_rejected_iff (c : Command) :
    (∃ r, decodeCommand c = .rejected r) ↔ c.cmd ≠ 0x0001#16 ∧ c.cmd.extractLsb' 0 8 ≠ 0x02#8 := by
  unfold decodeCommand
  by_cases init : c.cmd = 0x0001#16
  · simp [init]
  · by_cases xorb : c.cmd.extractLsb' 0 8 = 0x02#8 <;> simp [init, xorb]

theorem toOption_isSome_iff (r : Decoded) : r.toOption.isSome ↔ ¬ ∃ why, r = .rejected why := by
  cases r <;> simp [Decoded.toOption]

/-- The legal command words as numbers: 1, and those of low byte 2 (R77). -/
theorem legal_word_iff {w : Nat} (hw : w < 65536) (payload : BitVec 416) :
    (decodeCommand { cmd := BitVec.ofNat 16 w, payload := payload }).toOption.isSome ↔ w = 1 ∨ w % 256 = 2 := by
  have cmd : (BitVec.ofNat 16 w).toNat = w := Nat.mod_eq_of_lt hw
  have low : ((BitVec.ofNat 16 w).extractLsb' 0 8).toNat = w % 256 := by
    rw [BitVec.extractLsb'_toNat, cmd, Nat.shiftRight_zero]
  rw [toOption_isSome_iff, decodeCommand_rejected_iff, ne_eq, ne_eq, ← BitVec.toNat_inj, ← BitVec.toNat_inj, cmd, low,
    not_and_not_right]
  exact or_iff_not_imp_left.symm

/-- 1, and one number in each 256 from 2 up (R77). -/
theorem count_legal_words : Nat.count (fun w => w = 1 ∨ w % 256 = 2) 65536 = 257 := by
  have above (k : Nat) : (2 + k = 1 ∨ (2 + k) % 256 = 2) ↔ k ≡ 0 [MOD 256] := by unfold Nat.ModEq; omega
  have one : Nat.count (fun w => w = 1 ∨ w % 256 = 2) 2 = 1 := by decide
  rw [show 65536 = 2 + 65534 from rfl, Nat.count_add, one]
  simp only [above, Nat.count_modEq_card 65534 (show 0 < 256 by decide)]
  decide

/-- Settles O2: the three cases of the decoder, and the legal words counted. -/
theorem commandWordsDecodeByOpcode : Obligations.CommandWordsDecodeByOpcode := by
  refine ⟨fun c => ⟨decodeCommand_init_iff c, decodeCommand_xorb_iff c, decodeCommand_rejected_iff c⟩, fun payload => ?_⟩
  rw [← List.countP_eq_length_filter, ← count_legal_words, Nat.count]
  refine List.countP_congr fun w hw => ?_
  rw [legal_word_iff (List.mem_range.1 hw), decide_eq_true_iff]

/-- Settles O1: the decoder run on the written words. -/
theorem writtenWordsDecode : Obligations.WrittenWordsDecode := by
  unfold Obligations.WrittenWordsDecode
  decide +kernel

end Sys2Proof.Machine

/-! SUPPORT. Proofs of the statement about the text of a command (30_encoding.md R72, R73): each part of the assembler reads
back what its part of the printer writes. -/

namespace Sys2Proof.Machine

open Sys2Proof

/-! ### Digits, bytes and the counter -/

theorem hexValue_hexDigit {v : Nat} (h : v < 16) : hexValue (hexDigit v) = some v := by
  revert v; decide

theorem expect_append (pre cs : List Char) : expect pre (pre ++ cs) = some cs := by
  induction pre with
  | nil => rfl
  | cons e es ih => simpa [expect] using ih

/-- The two digits of a byte put together again (R8). -/
theorem byte_of_digits (b : Byte) : BitVec.ofNat 8 (b.toNat / 16 * 16 + b.toNat % 16) = b := by
  rw [Nat.div_add_mod', BitVec.ofNat_toNat, BitVec.setWidth_eq]

/-- Printed bytes are read back, and the text after them is left (R8). -/
theorem parseBytes_print (bs : List Byte) (rest : List Char) :
    parseBytes bs.length (bs.flatMap printByte ++ rest) = some (bs, rest) := by
  induction bs with
  | nil => rfl
  | cons b bs ih =>
    have high : hexValue (hexDigit (b.toNat / 16)) = some (b.toNat / 16) := hexValue_hexDigit (by omega)
    have low : hexValue (hexDigit (b.toNat % 16)) = some (b.toNat % 16) := hexValue_hexDigit (by omega)
    simp [printByte, parseBytes, high, low, ih, byte_of_digits]

theorem parseBytes_printVector {n : Nat} (bytes : Vector Byte n) (rest : List Char) :
    parseBytes n (bytes.toList.flatMap printByte ++ rest) = some (bytes.toList, rest) := by
  have parsed := parseBytes_print bytes.toList rest
  rwa [Vector.length_toList] at parsed

theorem bytesVector_toList {n : Nat} (bytes : Vector Byte n) : bytesVector n bytes.toList = some bytes := by
  rw [bytesVector, dif_pos (by simp)]
  rfl

/-- The `n` low hex digits of a number, the most significant first. -/
def hexDigits (n c : Nat) : List Char := (List.range n).map fun i => hexDigit (c / 16 ^ (n - 1 - i) % 16)

theorem printCounter_eq (c : BitVec 64) : printCounter c = "0x".toList ++ hexDigits 16 c.toNat := rfl

@[simp] theorem hexDigits_length (n c : Nat) : (hexDigits n c).length = n := by simp [hexDigits]

theorem hexDigits_succ (n c : Nat) : hexDigits (n + 1) c = hexDigit (c / 16 ^ n % 16) :: hexDigits n c := by
  have place (i : Nat) : n + 1 - 1 - (i + 1) = n - 1 - i := by omega
  simp only [hexDigits, List.range_succ_eq_map, List.map_cons, List.map_map, Function.comp_def, place]
  rfl

/-- Hex digits are read back as the number's low digits, behind those already read. -/
theorem parseDigits_hexDigits (n c acc : Nat) :
    parseDigits 16 hexValue acc (hexDigits n c) = some (acc * 16 ^ n + c % 16 ^ n) := by
  induction n generalizing acc with
  | zero => simp [hexDigits, parseDigits, Nat.mod_one]
  | succ n ih =>
    rw [hexDigits_succ, parseDigits, hexValue_hexDigit (Nat.mod_lt _ (by decide))]
    dsimp only
    rw [ih, Nat.pow_succ, Nat.mod_mul]
    congr 1
    ring

theorem parseCounter_printCounter (c : BitVec 64) : parseCounter (printCounter c) = some c := by
  have fits : c.toNat % 16 ^ 16 = c.toNat := Nat.mod_eq_of_lt c.isLt
  have value : parseDigits 16 hexValue 0 (hexDigits 16 c.toNat) = some c.toNat := by
    rw [parseDigits_hexDigits, Nat.zero_mul, Nat.zero_add, fits]
  rw [parseCounter, printCounter_eq, expect_append]
  simp [value]

/-! ### Lines -/

theorem parseInit_print (key : Key) (nonce : Nonce) (ctr : BitVec 64) :
    parseInit ("key=".toList ++ (key.toList.flatMap printByte ++ (", nonce=".toList ++ (nonce.toList.flatMap printByte ++
      (", ctr=".toList ++ printCounter ctr))))) = some [initCommand key nonce ctr] := by
  simp only [parseInit, expect_append, parseBytes_printVector, bytesVector_toList, parseCounter_printCounter]

theorem printInit_eq (key : Key) (nonce : Nonce) (ctr : BitVec 64) :
    printInit key nonce ctr = "INIT ".toList ++ ("key=".toList ++ (key.toList.flatMap printByte ++ (", nonce=".toList ++
      (nonce.toList.flatMap printByte ++ (", ctr=".toList ++ printCounter ctr))))) := rfl

theorem assemble_init {ops : List Char} : assemble ("INIT ".toList ++ ops) = parseInit ops := by
  rw [assemble, expect_append]

/-- The operand of a printed XORB, read back. -/
theorem parseByteList_printByte (fuel : Nat) (d : Byte) :
    parseByteList (fuel + 1) (" 0x".toList ++ printByte d) = some [d] := by
  have marked : expect " 0x".toList (' ' :: '0' :: 'x' :: printByte d) = some (printByte d) := expect_append _ _
  have parsed : parseBytes 1 (printByte d) = some ([d], []) := parseBytes_print [d] []
  change parseByteList (fuel + 1) (' ' :: '0' :: 'x' :: printByte d) = _
  simp only [parseByteList, marked, parsed]
  rfl

theorem assemble_xorb {ops : List Char} {d : Byte} (h : parseByteList ops.length ops = some [d]) :
    assemble ("XORB".toList ++ ops) = some [xorbCommand d] := by
  have notInit : expect "INIT ".toList ("XORB".toList ++ ops) = none := rfl
  simp only [assemble, notInit, expect_append, h]

/-- Settles O7, part by part of each line. -/
theorem printedCommandsAssemble : Obligations.PrintedCommandsAssemble := by
  refine ⟨fun key nonce ctr => ?_, fun d => ?_⟩
  · rw [printInit_eq, assemble_init, parseInit_print]
  · exact assemble_xorb (parseByteList_printByte _ d)

end Sys2Proof.Machine

/-! SUPPORT. Proofs of the statements about whole commands: what a command answers (30_encoding.md R69, R70), the steps of a
block put together (40_block_function.md R87 to R92), and the keystream bytes of a run of XORBs (41_commands.md R107). -/

namespace Sys2Proof.Machine

open Sys2Proof

/-! ### Answers -/

/-- In every case a step gives at most one response, and one that is not OK carries 0x00 (R69, R70, R104). -/
theorem StepCase.answers {s t : State} (h : StepCase s t) :
    t.responses = s.responses ∨ ∃ r, t.responses = s.responses ++ [r] ∧ (r.rsp ≠ .ok → r.dout = 0x00#8) := by
  cases h with
  | wait _ _ eq | start _ _ _ _ _ _ _ _ eq | colround _ _ _ eq | diaground _ _ _ eq | feedfwd _ eq =>
    exact .inl (by simp [eq])
  | init _ _ _ _ _ _ _ _ eq => exact .inr ⟨{ rsp := .ok, dout := 0x00#8 }, by simp [eq], by simp⟩
  | serve _ _ _ _ d _ _ _ eq =>
    exact .inr ⟨{ rsp := .ok, dout := d ^^^ ksByte s.ks s.cur.toNat }, by simp [eq], by simp⟩
  | noContext _ _ _ _ _ _ _ eq => exact .inr ⟨{ rsp := .noinit, dout := 0x00#8 }, by simp [eq], by simp⟩
  | illegal _ _ _ _ _ _ eq => exact .inr ⟨{ rsp := .illegal, dout := 0x00#8 }, by simp [eq], by simp⟩
  | ctrinc _ eq => exact .inr ⟨{ rsp := .ok, dout := s.pend ^^^ ksByte s.ks 0 }, by simp [eq], by simp⟩

/-- The code 0b11 is never given (R70). -/
theorem rsp_code_ne (r : Rsp) : r.code ≠ 0b11#2 := by cases r <;> decide

/-- Settles O41: a reset answers nothing, and every other step at most once. -/
theorem stepsAnswerAtMostOnce : Obligations.StepsAnswerAtMostOnce := by
  intro s t h
  rcases step_cases h with ⟨-, rfl⟩ | ⟨-, taken⟩
  · exact .inl (by simp)
  · rcases taken.answers with same | ⟨r, more, zero⟩
    · exact .inl (by simpa using same)
    · exact .inr ⟨r, by simpa using more, rsp_code_ne r.rsp, zero⟩

/-! ### Runs with no input to come -/

/-- A step with nothing from outside, by the case it takes. -/
theorem step_of_case_noInput {s t : State} (inputs : s.inputs = []) (h : StepCase s t) : step s = .next t := by
  have noReset : s.resetAsserted = false := by simp [State.resetAsserted, inputs]
  have received : s.receive = s := by simp [State.receive, inputs]
  exact step_of_case noReset (received.symm ▸ h)

theorem runSteps_one {s t : State} (h : step s = .next t) : runSteps 1 s = .next t := runSteps_succ h

/-- A run goes on from where its first part ends. -/
theorem runSteps_add {m n : Nat} {s t : State} (h : runSteps m s = .next t) : runSteps (m + n) s = runSteps n t := by
  induction m generalizing s with
  | zero => injection h with h; rw [h, Nat.zero_add]
  | succ m ih =>
    obtain ⟨u, stepped, rest⟩ := exists_step_of_runSteps_succ h
    rw [Nat.add_right_comm, runSteps_succ stepped, ih rest]

/-! ### The steps of a block -/

/-- SEQ after `n` half-rounds of a block (R32, R87). -/
def seqAfter (n : Nat) : Seq :=
  if n < 20 then { ph := .round, k := BitVec.ofNat 5 n } else { ph := .feedfwd, k := 0#5 }

/-- The state after the accepting step of an XORB that makes a block, and `n` half-rounds (R84 to R87). -/
def State.inBlock (s : State) (later : List Command) (d : Byte) (n : Nat) : State :=
  { s with port := later, pend := d, x := halfRounds n s.words, seq := seqAfter n }

/-- The state an XORB that makes a block leaves: the block's keystream, the counter advanced, and the answer from byte 0
(R92, R103). -/
def State.afterBlock (s : State) (later : List Command) (d : Byte) : State :=
  { s with
    port := later
    ctx := s.advanceCounter.ctx
    ks := blockKs s.words
    x := doubleRounds 10 s.words
    cur := 1#7
    seq := .idle
    pend := Config.unwrittenByte (s.draws + 1)
    draws := s.draws + 1
    responses := s.responses ++ [{ rsp := .ok, dout := d ^^^ ksByte (blockKs s.words) 0 }] }

theorem words_afterBlock (s : State) (later : List Command) (d : Byte) :
    (s.afterBlock later d).words = incCounter s.words := by
  rw [← words_advanceCounter]
  exact words_congr rfl

section block
variable {s : State} (later : List Command) (d : Byte)

theorem stepCase_inBlock {n : Nat} (h : n < 20) : StepCase (s.inBlock later d n) (s.inBlock later d (n + 1)) := by
  have seq : (s.inBlock later d n).seq = { ph := .round, k := BitVec.ofNat 5 n } := if_pos h
  have ph : (s.inBlock later d n).seq.ph = .round := by rw [seq]
  have k : (s.inBlock later d n).seq.k.toNat = n := by rw [seq]; exact Nat.mod_eq_of_lt (by omega)
  have next : (s.inBlock later d n).seq.k + 1#5 = BitVec.ofNat 5 (n + 1) := by
    rw [seq]; exact (BitVec.ofNat_add n 1).symm
  rcases Nat.mod_two_eq_zero_or_one n with even | odd
  · refine .colround ph (by omega) (by omega) ?_
    rw [next]
    have below : n + 1 < 20 := by omega
    simp only [State.inBlock, seqAfter, if_pos below, halfRounds_succ_even even]
  · refine .diaground ph (by omega) (by omega) ?_
    rw [k, next]
    have below : n < 19 ↔ n + 1 < 20 := by omega
    simp only [State.inBlock, seqAfter, below, halfRounds_succ_odd odd]

theorem runSteps_inBlock (inputs : s.inputs = []) {n : Nat} (h : n ≤ 20) :
    runSteps n (s.inBlock later d 0) = .next (s.inBlock later d n) := by
  induction n with
  | zero => rfl
  | succ n ih =>
    rw [runSteps_add (ih (by omega))]
    exact runSteps_one (step_of_case_noInput inputs (stepCase_inBlock later d (by omega)))

/-- What CTRINC does to each field (R90, R103). -/
theorem step_ctrinc_noInput (inputs : s.inputs = []) (seq : s.seq = { ph := .ctrinc, k := 0#5 }) :
    step s = .next { s with
      ctx := s.advanceCounter.ctx
      cur := 1#7
      seq := .idle
      pend := Config.unwrittenByte (s.draws + 1)
      draws := s.draws + 1
      responses := s.responses ++ [{ rsp := .ok, dout := s.pend ^^^ ksByte s.ks 0 }] } :=
  step_of_case_noInput inputs (.ctrinc seq (congrArg State.completeXorb (advanceCounter_eq s)).symm)

/-- With the half-rounds done, FEEDFWD makes the keystream and CTRINC completes the XORB (R89, R90). The number of
half-rounds is kept a variable, so that no comparison of states runs them. -/
theorem runSteps_finishBlock (inputs : s.inputs = []) :
    runSteps 2 (s.inBlock later d 20) = .next (s.afterBlock later d) := by
  generalize last : 20 = n
  have seq : (s.inBlock later d n).seq = { ph := .feedfwd, k := 0#5 } := by rw [← last]; rfl
  have rounds : (s.inBlock later d n).x = doubleRounds 10 s.words := by
    rw [← last]; exact halfRounds_two_mul 10 s.words
  have ks : addWords (s.inBlock later d n).x (s.inBlock later d n).words = blockKs s.words := by
    rw [rounds, words_congr (s := s.inBlock later d n) (t := s) rfl, blockKs]
  have ctx (ks : Words) (seq : Seq) : (State.advanceCounter { s.inBlock later d n with ks := ks, seq := seq }).ctx =
      s.advanceCounter.ctx := advanceCounter_ctx_congr rfl
  have feedfwd := step_of_case_noInput (s := s.inBlock later d n) inputs (.feedfwd seq rfl)
  have ctrinc := step_ctrinc_noInput
    (s := { s.inBlock later d n with ks := blockKs s.words, seq := { ph := .ctrinc, k := 0#5 } }) inputs rfl
  rw [ks] at feedfwd
  rw [ctx, rounds] at ctrinc
  exact (runSteps_succ feedfwd).trans (runSteps_one ctrinc)

/-- An XORB at CUR = 64 takes 23 steps: the accepting one, 20 half-rounds, FEEDFWD and CTRINC (R91, R153). -/
theorem runSteps_xorb_block {c : Command} {later : List Command} {d : Byte} (inputs : s.inputs = [])
    (idle : s.seq = .idle) (port : s.port = c :: later) (dec : decodeCommand c = .instr (.xorb d))
    (initd : s.initd = true) (cur : s.cur = 64#7) : runSteps 23 s = .next (s.afterBlock later d) := by
  have accept : step s = .next (s.inBlock later d 0) :=
    step_of_case_noInput inputs (.start idle c later port d dec initd cur rfl)
  have rounds : runSteps 20 (s.inBlock later d 0) = .next (s.inBlock later d 20) :=
    runSteps_inBlock later d inputs (Nat.le_refl 20)
  calc runSteps 23 s = runSteps (20 + 2) (s.inBlock later d 0) := runSteps_succ accept
    _ = runSteps 2 (s.inBlock later d 20) := runSteps_add rounds
    _ = .next (s.afterBlock later d) := runSteps_finishBlock later d inputs

end block

/-- Settles O50: an XORB that makes a block takes 23 steps, and every other command one. -/
theorem everyCommandIsAnswered : Obligations.EveryCommandIsAnswered := by
  intro s c later inv idle inputs port
  obtain ⟨t, taken⟩ := exists_stepCase_of_inv inv
  have single := runSteps_one (step_of_case_noInput inputs taken)
  cases taken with
  | wait _ empty => exact absurd empty (by simp [port])
  | start _ c' later' port' d dec initd cur =>
    obtain ⟨rfl, rfl⟩ : c' = c ∧ later' = later := by simpa [port] using port'.symm
    exact ⟨23, _, _, Nat.le_refl 23, runSteps_xorb_block inputs idle port dec initd cur, rfl, rfl, rfl⟩
  | init _ c' later' port' _ _ _ _ eq | serve _ c' later' port' _ _ _ _ eq | noContext _ c' later' port' _ _ _ eq
    | illegal _ c' later' port' _ _ eq =>
    obtain ⟨rfl, rfl⟩ : c' = c ∧ later' = later := by simpa [port] using port'.symm
    subst eq
    exact ⟨1, _, _, by decide, single, by simp [idle], by simp, rfl⟩
  | colround ph | diaground ph => simp [idle] at ph
  | feedfwd seq | ctrinc seq => simp [idle] at seq

/-! ### The keystream bytes of a run of XORBs -/

/-- One block more (R90, R109). -/
theorem incCounter_withCounter (w : Words) (v : BitVec 64) :
    incCounter (withCounter w v) = withCounter w (v + 1#64) := by
  have counter : counterOf (incCounter (withCounter w v)) = v + 1#64 := by
    rw [counterOf_incCounter, counterOf_withCounter]
  rw [← withCounter_counterOf (incCounter (withCounter w v)), counter]
  refine withCounter_congr (fun i hi h12 h13 => ?_) _
  rw [incCounter_get_other _ i hi h12 h13, withCounter, Vector.getElem_set_ne _ _ (Ne.symm h13),
    Vector.getElem_set_ne _ _ (Ne.symm h12)]

/-- The context `w` once `n` blocks have been made (R109). -/
def wordsAfter (w : Words) (n : Nat) : Words := withCounter w (counterOf w + BitVec.ofNat 64 n)

theorem wordsAfter_zero (w : Words) : wordsAfter w 0 = w := by
  rw [wordsAfter, BitVec.add_zero, withCounter_counterOf]

theorem incCounter_wordsAfter (w : Words) (n : Nat) : incCounter (wordsAfter w n) = wordsAfter w (n + 1) := by
  rw [wordsAfter, incCounter_withCounter, BitVec.add_assoc, ← BitVec.ofNat_add, wordsAfter]

theorem keystreamByte_eq (w : Words) (n : Nat) :
    keystreamByte w n = ksByte (blockKs (wordsAfter w (n / 64))) (n % 64) := rfl

/-- An idle CORE, with no input to come, that has used `n` bytes of the context `w`: the words of S, the cursor, and the
block buffered, unless all of it is used (R109). -/
structure State.AtByte (s : State) (w : Words) (n : Nat) : Prop where
  idle : s.seq = .idle
  inputs : s.inputs = []
  initd : s.initd = true
  cur : s.cur.toNat = cursorAfter n
  words : s.words = wordsAfter w (blocksFor n)
  ks : n % 64 ≠ 0 → s.ks = blockKs (wordsAfter w (n / 64))

theorem cursorAfter_succ (n : Nat) : cursorAfter (n + 1) = n % 64 + 1 := rfl

theorem cursorAfter_full {n : Nat} (h : n % 64 = 0) : cursorAfter n = 64 := by
  unfold cursorAfter; split <;> omega

theorem cursorAfter_partial {n : Nat} (h : n % 64 ≠ 0) : cursorAfter n = n % 64 := by
  unfold cursorAfter; split <;> omega

/-- The steps of the XORB that uses byte `n` of a context: 23 where it makes a block, and one elsewhere (R153). -/
def stepsAtByte (n : Nat) : Nat := if n % 64 = 0 then 23 else 1

/-- An XORB answers with the next keystream byte (R105, R109). -/
theorem runSteps_xorb_atByte {s : State} {w : Words} {n : Nat} (h : s.AtByte w n) {d : Byte} {later : List Command}
    (port : s.port = xorbCommand d :: later) :
    ∃ t, runSteps (stepsAtByte n) s = .next t ∧ t.AtByte w (n + 1) ∧ t.port = later ∧
      t.responses = s.responses ++ [{ rsp := .ok, dout := d ^^^ keystreamByte w n }] := by
  have dec : decodeCommand (xorbCommand d) = .instr (.xorb d) := decodeCommand_xorb d
  have cur := h.cur
  have words := h.words
  unfold stepsAtByte
  split
  · next full =>
    rw [cursorAfter_full full] at cur
    have made : blocksFor n = n / 64 := by unfold blocksFor; omega
    have next : blocksFor (n + 1) = n / 64 + 1 := by unfold blocksFor; omega
    rw [made] at words
    refine ⟨_, runSteps_xorb_block h.inputs h.idle port dec h.initd (BitVec.eq_of_toNat_eq cur), ?_, rfl, ?_⟩
    · refine ⟨rfl, h.inputs, h.initd, ?_, ?_, fun _ => ?_⟩
      · rw [cursorAfter_succ, full]; rfl
      · rw [words_afterBlock, words, incCounter_wordsAfter, next]
      · rw [show (n + 1) / 64 = n / 64 by omega, ← words]; rfl
    · rw [keystreamByte_eq, full, ← words]; rfl
  · next buffered =>
    rw [cursorAfter_partial buffered] at cur
    have made : blocksFor (n + 1) = blocksFor n := by unfold blocksFor; omega
    have below : s.cur.toNat < 64 := by omega
    have served := step_of_case_noInput h.inputs (.serve h.idle _ later port d dec h.initd below rfl)
    refine ⟨_, runSteps_one served, ?_, rfl, ?_⟩
    · refine ⟨h.idle, h.inputs, h.initd, ?_, ?_, fun more => ?_⟩
      · rw [cursorAfter_succ, serveByte_cur, BitVec.toNat_add, cur]
        simp; omega
      · rw [made, ← words]; exact words_congr rfl
      · rw [show (n + 1) / 64 = n / 64 by omega]; exact h.ks buffered
    · rw [serveByte_responses, keystreamByte_eq, cur, h.ks buffered]

/-- A run of XORBs answers with its bytes XORed with the keystream (R105). -/
theorem runSteps_apply_atByte {s : State} {w : Words} {n : Nat} (h : s.AtByte w n) {data : List Byte}
    (port : s.port = expandApply data) :
    ∃ m t, runSteps m s = .next t ∧ t.AtByte w (n + data.length) ∧ t.port = [] ∧
      t.responses = s.responses ++ okResponses (xorStream w n data) := by
  induction data generalizing s n with
  | nil => exact ⟨0, s, rfl, h, port, (List.append_nil _).symm⟩
  | cons d data ih =>
    obtain ⟨t, first, atNext, rest, answered⟩ := runSteps_xorb_atByte h port
    obtain ⟨m, u, ran, atEnd, empty, responses⟩ := ih atNext rest
    refine ⟨stepsAtByte n + m, u, (runSteps_add first).trans ran, ?_, empty, ?_⟩
    · rw [List.length_cons, Nat.add_comm data.length, ← Nat.add_assoc]; exact atEnd
    · rw [responses, answered, List.append_assoc]; rfl

/-- An idle CORE at CUR = 64 has used no byte of its context. -/
theorem atByte_zero {s : State} (idle : s.seq = .idle) (inputs : s.inputs = []) (initd : s.initd = true)
    (cur : s.cur = 64#7) : s.AtByte s.words 0 where
  idle := idle
  inputs := inputs
  initd := initd
  cur := congrArg BitVec.toNat cur
  words := (wordsAfter_zero _).symm
  ks used := absurd rfl used

/-- `KSTREAM n` is the `APPLY` of `n` bytes 0x00 (R75). -/
theorem expandKstream_eq (n : Nat) : expandKstream n = expandApply (List.replicate n 0x00#8) :=
  List.map_replicate.symm

/-- Zero bytes are answered with the keystream itself (R75). -/
theorem xorStream_zeros (w : Words) (k n : Nat) :
    xorStream w k (List.replicate n 0x00#8) = (List.range' k n).map (keystreamByte w) := by
  induction n generalizing k with
  | zero => rfl
  | succ n ih => rw [List.replicate_succ, xorStream, ih, List.range'_succ, List.map_cons, BitVec.zero_xor]

/-- Settles O52: KSTREAM is an APPLY of zero bytes, from the start of the stream. -/
theorem kstreamReturnsTheKeystream : Obligations.KstreamReturnsTheKeystream := by
  intro s n idle initd cur inputs port
  rw [expandKstream_eq] at port
  obtain ⟨m, t, ran, atEnd, empty, responses⟩ := runSteps_apply_atByte (atByte_zero idle inputs initd cur) port
  rw [xorStream_zeros, ← List.range_eq_range'] at responses
  exact ⟨m, t, ran, ⟨atEnd.idle, empty⟩, responses⟩

end Sys2Proof.Machine

/-! SUPPORT. Proofs of the statements about the block function (40_block_function.md): its primitives, the lanes of a
half-round, the effect of each micro-operation, and the steps of a block against the atomic view of R92. -/

namespace Sys2Proof.Machine

open Sys2Proof

/-! ### The primitives -/

/-- Settles O10: a bit comes from the left-shifted part at and above `n`, and from the right-shifted part below it. -/
theorem rotationMovesBits : Obligations.RotationMovesBits := by
  intro v n i least most inWord
  rw [rotl32, BitVec.getLsbD_or, BitVec.getLsbD_shiftLeft, BitVec.getLsbD_ushiftRight]
  by_cases below : i < n
  · rw [show (i + 32 - n) % 32 = 32 - n + i by omega]
    simp [below]
  · have outside : v.getLsbD (32 - n + i) = false := BitVec.getLsbD_of_ge v _ (by omega)
    rw [show (i + 32 - n) % 32 = i - n by omega, outside]
    simp [below, inWord]

/-- Settles O11. -/
theorem quarterRoundExamples : Obligations.QuarterRoundExamples := by
  unfold Obligations.QuarterRoundExamples
  decide

/-! ### The lanes of a half-round -/

/-- Lanes that share no index: each reads, after the ones before it have written, what the half-round began with. -/
theorem serial_fold_eq {lanes : List Lane} (x acc : Words)
    (disjoint : lanes.Pairwise fun l m => l.indices.Disjoint m.indices) (fresh : ∀ l ∈ lanes, l.read acc = l.read x) :
    lanes.foldl (fun acc l => l.write acc (qr (l.read acc))) acc =
      lanes.foldl (fun acc l => l.write acc (qr (l.read x))) acc := by
  induction lanes generalizing acc with
  | nil => rfl
  | cons l lanes ih =>
    obtain ⟨apart, disjoint⟩ := List.pairwise_cons.1 disjoint
    rw [List.foldl_cons, List.foldl_cons, fresh l List.mem_cons_self]
    refine ih _ disjoint fun m later => ?_
    rw [lane_read_write_disjoint m l acc _ (apart m later).symm]
    exact fresh m (List.mem_cons_of_mem l later)

/-- A word file is known by what lanes read of it that name every index. -/
theorem eq_of_lane_reads {lanes : List Lane} {x y : Words} (cover : ∀ i, i ∈ lanes.flatMap Lane.indices)
    (same : ∀ l ∈ lanes, l.read x = l.read y) : x = y := by
  apply Vector.ext
  intro i inFile
  obtain ⟨l, inLanes, named⟩ := List.mem_flatMap.1 (cover ⟨i, inFile⟩)
  have words : ∀ j ∈ l.indices, x[j] = y[j] := by simpa [Lane.read, Lane.indices] using same l inLanes
  exact words _ named

section lanes
variable {lanes : List Lane} (once : (lanes.flatMap Lane.indices).Perm (List.finRange 16))
include once

/-- Where the lanes use every index once, no lane repeats an index and no two lanes share one. -/
theorem lanes_apart : (∀ l ∈ lanes, l.indices.Nodup) ∧ lanes.Pairwise fun l m => l.indices.Disjoint m.indices :=
  List.nodup_flatMap.1 (once.nodup_iff.2 (List.nodup_finRange 16))

/-- In parallel or one after another in the order of the list is the same (R83). -/
theorem serialRound_eq_halfRound (x : Words) : serialRound lanes x = halfRound lanes x :=
  serial_fold_eq x x (lanes_apart once).2 fun _ _ => rfl

/-- A half-round puts each of its lanes through the quarter-round (R82). -/
theorem read_halfRound (x : Words) {l : Lane} (h : l ∈ lanes) : l.read (halfRound lanes x) = qr (l.read x) :=
  lane_read_fold lanes x x l h ((lanes_apart once).1 l h) ((lanes_apart once).2.imp fun apart _ hl hm => apart hl hm)

/-- The order of the lanes does not matter: every order reads alike in every lane. -/
theorem halfRound_perm {order : List Lane} (perm : order.Perm lanes) (x : Words) :
    halfRound order x = halfRound lanes x := by
  have onceInOrder : (order.flatMap Lane.indices).Perm (List.finRange 16) := (perm.flatMap_right _).trans once
  refine eq_of_lane_reads (fun i => once.mem_iff.2 (List.mem_finRange i)) fun l inTable => ?_
  rw [read_halfRound once x inTable, read_halfRound onceInOrder x (perm.mem_iff.2 inTable)]

end lanes

/-- Settles O12: a table that uses every index once gives in any order what it gives in parallel. -/
theorem lanesCommute : Obligations.LanesCommute := by
  intro table isTable
  have once : (table.flatMap Lane.indices).Perm (List.finRange 16) := by
    revert table; decide
  refine ⟨once, fun order x perm => ?_⟩
  rw [serialRound_eq_halfRound ((perm.flatMap_right _).trans once), halfRound_perm once perm]

/-- Settles O13. -/
theorem halfRoundsMakeDoubleRounds : Obligations.HalfRoundsMakeDoubleRounds := halfRounds_two_mul

/-! ### The micro-operations -/

/-- Settles O32, by the lanes of the column table. -/
theorem colroundMixesTheColumns : Obligations.ColroundMixesTheColumns := by
  intro k s
  have column : ∀ c : Fin 4, ⟨⟨c, by omega⟩, ⟨c + 4, by omega⟩, ⟨c + 8, by omega⟩, ⟨c + 12, by omega⟩⟩ ∈ colLanes := by
    decide
  exact ⟨_, execColround_eq k s, fun c => halfRound_col_lane _ (column c) s.x, rfl⟩

/-- Settles O33, by the lanes of the diagonal table and the two values DIAGROUND gives SEQ. -/
theorem diagroundMixesTheDiagonals : Obligations.DiagroundMixesTheDiagonals := by
  intro k s
  have diagonal (l : Lane) (h : l ∈ diagLanes) := halfRound_diag_lane l h s.x
  exact ⟨_, execDiaground_eq k s, diagonal ⟨0, 5, 10, 15⟩ (by decide), diagonal ⟨1, 6, 11, 12⟩ (by decide),
    diagonal ⟨2, 7, 8, 13⟩ (by decide), diagonal ⟨3, 4, 9, 14⟩ (by decide), fun below => if_pos below,
    fun last => congrArg Seq.word (if_neg (Nat.not_lt.2 last)), rfl⟩

/-- Settles O34. -/
theorem feedfwdWritesTheKeystream : Obligations.FeedfwdWritesTheKeystream := by
  intro s
  have word : Seq.word { ph := .ctrinc, k := 0#5 } = 0x60#7 := by decide
  refine ⟨_, execFeedfwd_eq s, fun i => ?_, word, rfl⟩
  rw [← words_get]
  exact addWords_get s.x s.words i i.isLt

/-- The carry out of a word: adding one gives 0 at the greatest word only (R90). -/
theorem add_one_eq_zero_iff (w : Word) : w + 1#32 = 0#32 ↔ w = 0xFFFFFFFF#32 := by bv_omega

/-- Settles O35, by what the increment does to each word of S and what the completion does to each field. -/
theorem ctrincCompletesThePendingXorb : Obligations.CtrincCompletesThePendingXorb := by
  intro s
  have words (i : Fin 16) : s.advanceCounter.completeXorb.readS i = s.advanceCounter.readS i :=
    readS_congr (completeXorb_ctx _) i
  refine ⟨_, execCtrinc_eq s, ?_, ?_, fun i ne12 ne13 => ?_, ?_⟩
  · rw [words, readS_advanceCounter, if_pos rfl]
  · rw [words, readS_advanceCounter]
    simp [add_one_eq_zero_iff]
  · rw [words, readS_advanceCounter]
    simp [ne12, ne13]
  · have byte : ksByte s.ks 0 = s.ks[0].extractLsb' 0 8 := ksByte_of_word s.ks 0 0
    rw [advanceCounter_eq s, ← byte]
    rfl

/-- Settles O29: INITD is 1 and CUR is 64, so XORB starts a block. -/
theorem xorbStartsABlock : Obligations.XorbStartsABlock := by
  intro d s initd cur
  have started : exec (.xorb d) s = .next (s.startBlock d) := by
    rw [exec, execXorb, if_neg (by simp [initd]), if_neg (by simp [cur])]
    exact if_pos cur
  exact ⟨_, started, by rw [startBlock_seq]; decide, words_get s, rfl⟩

/-- Settles O17: the arriving input leaves SEQ, so it selects the same micro-operation. -/
theorem stepRunsTheMicroOperation : Obligations.StepRunsTheMicroOperation := by
  intro s i noReset dec
  rw [step_of_noReset noReset, selectStep_micro (by rwa [receive_seq])]

/-- Settles O39: of `Block(S)` the half `S'` is the increment. -/
theorem blockKeepsKeyAndNonce : Obligations.BlockKeepsKeyAndNonce := fun w =>
  ⟨fun i ne12 ne13 => incCounter_get_other w i i.isLt (fun h => ne12 (Fin.ext h)) fun h => ne13 (Fin.ext h),
    counterOf_incCounter w⟩

/-! ### The steps of a block, whatever the host offers meanwhile -/

/-- The commands that arrive with a list of inputs. -/
def offersOf (inputs : List HostInput) : List Command := inputs.flatMap fun input => input.offer.toList

theorem offersOf_take_add (inputs : List HostInput) (m n : Nat) :
    offersOf (inputs.take (m + n)) = offersOf (inputs.take m) ++ offersOf ((inputs.drop m).take n) := by
  rw [List.take_add, offersOf, List.flatMap_append]; rfl

/-- A CORE with another host at its ports: other standing offers and other inputs to come. -/
def State.withHost (s : State) (port : List Command) (inputs : List HostInput) : State :=
  { s with port := port, inputs := inputs }

/-- The input of a step, if one is scheduled, reaches the host's side only (R112). -/
theorem receive_withHost (s : State) (port : List Command) (inputs : List HostInput) :
    (s.withHost port inputs).receive = s.withHost (port ++ offersOf (inputs.take 1)) (inputs.drop 1) := by
  cases inputs with
  | nil => simp [State.receive, State.withHost, offersOf]
  | cons input later => simp [State.receive, State.withHost, offersOf]

theorem resetAsserted_withHost {s : State} {port : List Command} {inputs : List HostInput}
    (noReset : ∀ input ∈ inputs.take 1, input.reset = false) : (s.withHost port inputs).resetAsserted = false := by
  cases inputs with
  | nil => rfl
  | cons input later => exact noReset input (by simp)

/-- A busy CORE does the same whatever stands at its ports (R100, R145). -/
theorem StepCase.withHost {s t : State} (h : StepCase s t) (busy : s.seq.ph ≠ .idle) (port : List Command)
    (inputs : List HostInput) : StepCase (s.withHost port inputs) (t.withHost port inputs) := by
  cases h with
  | wait idle | init idle | serve idle | start idle | noContext idle | illegal idle => simp [idle] at busy
  | colround ph lt even eq => exact .colround ph lt even (by rw [eq]; rfl)
  | diaground ph lt odd eq => exact .diaground ph lt odd (by rw [eq]; rfl)
  | feedfwd seq eq => exact .feedfwd seq (by rw [eq]; rfl)
  | ctrinc seq eq =>
    have ctx : (s.withHost port inputs).advanceCounter.ctx = s.advanceCounter.ctx := advanceCounter_ctx_congr rfl
    refine .ctrinc seq ?_
    rw [eq, advanceCounter_eq s, advanceCounter_eq (s.withHost port inputs), ctx]
    rfl

/-- The steps along a list of states that each lead to the next without the host, taken with it: its offers collect at the
port, one input a step. -/
theorem runSteps_withHost {trace : Nat → State} {n : Nat} (taken : ∀ m < n, StepCase (trace m) (trace (m + 1)))
    (busy : ∀ m < n, (trace m).seq.ph ≠ .idle) {port : List Command} {inputs : List HostInput}
    (noReset : ∀ input ∈ inputs.take n, input.reset = false) :
    runSteps n ((trace 0).withHost port inputs) =
      .next ((trace n).withHost (port ++ offersOf (inputs.take n)) (inputs.drop n)) := by
  induction n with
  | zero => simp [runSteps, offersOf]
  | succ n ih =>
    rw [List.take_add, List.forall_mem_append] at noReset
    obtain ⟨before, now⟩ := noReset
    have ran := ih (fun m h => taken m (Nat.lt_succ_of_lt h)) (fun m h => busy m (Nat.lt_succ_of_lt h)) before
    have last := (taken n (Nat.lt_succ_self n)).withHost (busy n (Nat.lt_succ_self n))
      (port ++ offersOf (inputs.take (n + 1))) (inputs.drop (n + 1))
    rw [runSteps_add ran]
    refine runSteps_one (step_of_case (resetAsserted_withHost now) ?_)
    rw [receive_withHost, List.append_assoc, ← offersOf_take_add, List.drop_drop]
    exact last

/-- The state after FEEDFWD: the block is made, and CTRINC is next (R89). -/
def State.blockMade (s : State) (later : List Command) (d : Byte) : State :=
  { s with port := later, pend := d, x := doubleRounds 10 s.words, ks := blockKs s.words, seq := { ph := .ctrinc, k := 0#5 } }

/-- The states of a block from the accepting step on: before each half-round, before FEEDFWD, before CTRINC, and after it
(R91, R92). -/
def State.blockTrace (s : State) (later : List Command) (d : Byte) (n : Nat) : State :=
  if n ≤ 20 then s.inBlock later d n else if n = 21 then s.blockMade later d else s.afterBlock later d

section trace
variable (s : State) (later : List Command) (d : Byte)

/-- The number of half-rounds is kept a variable, so that no comparison of states runs them. -/
theorem stepCase_blockMade {n : Nat} (last : n = 2 * 10) : StepCase (s.inBlock later d n) (s.blockMade later d) := by
  have seq : (s.inBlock later d n).seq = { ph := .feedfwd, k := 0#5 } := by rw [last]; rfl
  have rounds : halfRounds n s.words = doubleRounds 10 s.words := by rw [last, halfRounds_two_mul]
  have words : (s.inBlock later d n).words = s.words := words_congr rfl
  refine .feedfwd seq ?_
  rw [words]
  simp only [State.inBlock, State.blockMade, rounds, blockKs]

theorem stepCase_afterBlock : StepCase (s.blockMade later d) (s.afterBlock later d) := by
  have ctx : (s.blockMade later d).advanceCounter.ctx = s.advanceCounter.ctx := advanceCounter_ctx_congr rfl
  refine .ctrinc rfl ?_
  rw [advanceCounter_eq, ctx]
  simp only [State.blockMade, State.completeXorb, State.respond, State.afterBlock]

theorem stepCase_blockTrace {n : Nat} (h : n < 22) : StepCase (s.blockTrace later d n) (s.blockTrace later d (n + 1)) := by
  unfold State.blockTrace
  rcases Nat.lt_trichotomy n 20 with below | last | above
  · rw [if_pos (by omega), if_pos (by omega)]
    exact stepCase_inBlock later d below
  · rw [if_pos (by omega), if_neg (by omega), if_pos (by omega)]
    exact stepCase_blockMade s later d last
  · rw [if_neg (by omega), if_pos (by omega), if_neg (by omega), if_neg (by omega)]
    exact stepCase_afterBlock s later d

/-- Until CTRINC is done the sequencer is busy, and nothing is answered (R91, R103). -/
theorem blockTrace_busy {n : Nat} (h : n < 22) :
    (s.blockTrace later d n).seq.ph ≠ .idle ∧ (s.blockTrace later d n).responses = s.responses := by
  unfold State.blockTrace
  split
  · refine ⟨?_, rfl⟩
    change (seqAfter n).ph ≠ .idle
    unfold seqAfter
    split <;> simp
  · rw [if_pos (by omega)]
    exact ⟨by simp [State.blockMade], rfl⟩

end trace

/-- An XORB accepted at CUR = 64, and `n` more steps of its block, whatever the host offers (R92). -/
theorem runSteps_blockTrace {s : State} {c : Command} {d : Byte} {later : List Command} (idle : s.seq = .idle)
    (initd : s.initd = true) (cur : s.cur = 64#7) (port : s.port = c :: later) (dec : decodeCommand c = .instr (.xorb d))
    {n : Nat} (h : n ≤ 22) (noReset : ∀ input ∈ s.inputs.take (n + 1), input.reset = false) :
    runSteps (n + 1) s =
      .next ((s.blockTrace later d n).withHost (later ++ offersOf (s.inputs.take (n + 1))) (s.inputs.drop (n + 1))) := by
  rw [Nat.add_comm, List.take_add, List.forall_mem_append] at noReset
  obtain ⟨now, after⟩ := noReset
  have received : s.receive = s.withHost (c :: later ++ offersOf (s.inputs.take 1)) (s.inputs.drop 1) := by
    rw [← port]; exact receive_withHost s s.port s.inputs
  have accept : step s = .next ((s.blockTrace later d 0).withHost (later ++ offersOf (s.inputs.take 1)) (s.inputs.drop 1)) := by
    refine step_of_case (resetAsserted_withHost (s := s) (port := s.port) now) ?_
    rw [received]
    exact .start idle c _ rfl d dec initd cur rfl
  rw [runSteps_succ accept, runSteps_withHost (trace := s.blockTrace later d)
    (fun m below => stepCase_blockTrace s later d (Nat.lt_of_lt_of_le below h))
    (fun m below => (blockTrace_busy s later d (Nat.lt_of_lt_of_le below h)).1) after]
  rw [List.append_assoc, ← offersOf_take_add, List.drop_drop, Nat.add_comm 1]

/-- Settles O49: the states of the block are those of `blockTrace`, up to the host's side. -/
theorem blockStepsMeetTheAtomicView : Obligations.BlockStepsMeetTheAtomicView := by
  intro s c d later idle initd cur port dec noReset
  have ran {n : Nat} (h : n ≤ 22) := runSteps_blockTrace idle initd cur port dec h fun input scheduled =>
    noReset input (List.take_subset_take_left _ (by omega) scheduled)
  refine ⟨fun n first last => ?_, _, ran (Nat.le_refl 22), rfl, words_afterBlock s later d, rfl, rfl, initd, rfl, rfl,
    rfl, rfl, rfl⟩
  obtain ⟨m, rfl⟩ : ∃ m, n = m + 1 := ⟨n - 1, by omega⟩
  obtain ⟨busy, silent⟩ := blockTrace_busy s later d (n := m) (by omega)
  exact ⟨_, ran (by omega), decide_eq_false busy, silent⟩

end Sys2Proof.Machine

/-! SUPPORT. Proof of the statement that secrets do not steer the steps (40_block_function.md R96, 70_reset_and_hazards.md R154):
everything that can stop a step, said once, and that two states of equal control take steps of the same case. -/

namespace Sys2Proof.Machine

open Sys2Proof

/-! ### Steps that stop -/

/-- Every way a step without reset stops, with the values that decide it. -/
inductive StopCase (s : State) (f : Fault) : Prop where
  | sequencer (dec : decodeSequencer s.seq.word = .rejected .sequencerOutOfRange) (eq : f = .sequencerOutOfRange)
  | cursor (idle : s.seq = .idle) (c : Command) (later : List Command) (port : s.port = c :: later)
      (d : Byte) (dec : decodeCommand c = .instr (.xorb d)) (initd : s.initd = true) (above : 64 < s.cur.toNat)
      (eq : f = .cursorOutOfRange)

/-- Every case of `StopCase` stops the step. -/
theorem step_of_stopCase {s : State} {f : Fault} (noReset : s.resetAsserted = false) (h : StopCase s.receive f) :
    step s = .fault f := by
  rw [step_of_noReset noReset]
  generalize s.receive = u at h ⊢
  cases h with
  | sequencer dec eq => rw [eq]; simp [State.selectStep, dec]
  | cursor idle c later port d dec initd above eq =>
    have stops := xorbStopsOnUnreachableCursor d { u with port := later } initd above
    rw [selectStep_idle idle, eq]
    simpa only [State.selectCommand, port, dec] using stops

/-- A state with its input arrived steps or stops: SEQ, the port, INITD and CUR decide which. -/
theorem exists_stepCase_or_stopCase (s : State) : (∃ t, StepCase s t) ∨ ∃ f, StopCase s f := by
  rcases decodeSequencer_cases s.seq with
    ⟨idle, -⟩ | ⟨ph, lt, even, -⟩ | ⟨ph, lt, odd, -⟩ | ⟨seq, -⟩ | ⟨seq, -⟩ | dec
  · cases port : s.port with
    | nil => exact .inl ⟨_, .wait idle port rfl⟩
    | cons c later =>
      rcases decodeCommand_cases c with ⟨key, nonce, ctr, dec⟩ | ⟨d, dec⟩ | ⟨r, dec⟩
      · exact .inl ⟨_, .init idle c later port key nonce ctr dec rfl⟩
      · cases initd : s.initd with
        | false => exact .inl ⟨_, .noContext idle c later port d dec initd rfl⟩
        | true =>
          rcases Nat.lt_trichotomy s.cur.toNat 64 with below | full | above
          · exact .inl ⟨_, .serve idle c later port d dec initd below rfl⟩
          · exact .inl ⟨_, .start idle c later port d dec initd (BitVec.eq_of_toNat_eq full) rfl⟩
          · exact .inr ⟨_, .cursor idle c later port d dec initd above rfl⟩
      · exact .inl ⟨_, .illegal idle c later port r dec rfl⟩
  · exact .inl ⟨_, .colround ph lt even rfl⟩
  · exact .inl ⟨_, .diaground ph lt odd rfl⟩
  · exact .inl ⟨_, .feedfwd seq rfl⟩
  · exact .inl ⟨_, .ctrinc seq rfl⟩
  · exact .inr ⟨_, .sequencer dec rfl⟩

/-- A step that stops has no reset, and is one of the cases of `StopCase`. -/
theorem stopCase_of_step {s : State} {f : Fault} (h : step s = .fault f) :
    s.resetAsserted = false ∧ StopCase s.receive f := by
  cases reset : s.resetAsserted with
  | true => rw [step_of_reset reset] at h; cases h
  | false =>
    rcases exists_stepCase_or_stopCase s.receive with ⟨t, taken⟩ | ⟨f', stopped⟩
    · rw [step_of_case reset taken] at h; cases h
    · rw [step_of_stopCase reset stopped] at h
      injection h with h
      exact ⟨rfl, h ▸ stopped⟩

/-! ### Commands of one shape -/

theorem commandShape_init_iff (c : Command) :
    commandShape c = some true ↔ ∃ key nonce ctr, decodeCommand c = .instr (.init key nonce ctr) := by
  rcases decodeCommand_cases c with ⟨key, nonce, ctr, dec⟩ | ⟨d, dec⟩ | ⟨r, dec⟩ <;> simp [commandShape, dec]

theorem commandShape_xorb_iff (c : Command) : commandShape c = some false ↔ ∃ d, decodeCommand c = .instr (.xorb d) := by
  rcases decodeCommand_cases c with ⟨key, nonce, ctr, dec⟩ | ⟨d, dec⟩ | ⟨r, dec⟩ <;> simp [commandShape, dec]

theorem commandShape_illegal_iff (c : Command) : commandShape c = none ↔ ∃ r, decodeCommand c = .rejected r := by
  rcases decodeCommand_cases c with ⟨key, nonce, ctr, dec⟩ | ⟨d, dec⟩ | ⟨r, dec⟩ <;> simp [commandShape, dec]

/-! ### Two states of equal control -/

section sameControl
variable {s s' : State} (h : s.SameControl s')
include h

/-- Either has an input scheduled when the other has, with the same reset level and an offer of the same shape. -/
theorem inputs_of_sameControl :
    (s.inputs = [] ∧ s'.inputs = []) ∨
    ∃ input later input' later', s.inputs = input :: later ∧ s'.inputs = input' :: later' ∧
      input.reset = input'.reset ∧ input.offer.map commandShape = input'.offer.map commandShape ∧
      later.map HostInput.shape = later'.map HostInput.shape := by
  have shapes := h.inputs
  cases inputs : s.inputs with
  | nil =>
    rw [inputs, List.map_nil, eq_comm, List.map_eq_nil_iff] at shapes
    exact .inl ⟨rfl, shapes⟩
  | cons input later =>
    rw [inputs, List.map_cons, eq_comm, List.map_eq_cons_iff] at shapes
    obtain ⟨input', later', inputs', shape, rest⟩ := shapes
    obtain ⟨level, offer⟩ := Prod.mk.inj shape
    exact .inr ⟨input, later, input', later', rfl, inputs', level.symm, offer.symm, rest.symm⟩

theorem resetAsserted_of_sameControl : s.resetAsserted = s'.resetAsserted := by
  rcases inputs_of_sameControl h with ⟨empty, empty'⟩ | ⟨input, later, input', later', inputs, inputs', level, -, -⟩
  · simp only [State.resetAsserted, empty, empty']
  · simp only [State.resetAsserted, inputs, inputs', level]

/-- Inputs of the same shapes arrive at both. -/
theorem receive_sameControl : s.receive.SameControl s'.receive := by
  rcases inputs_of_sameControl h with ⟨empty, empty'⟩ | ⟨input, later, input', later', inputs, inputs', -, offer, rest⟩
  · simpa only [State.receive, empty, empty'] using h
  · have offers : input.offer.toList.map commandShape = input'.offer.toList.map commandShape := by
      rw [← Option.toList_map, offer, Option.toList_map]
    simp only [State.receive, inputs, inputs']
    exact { h with port := by simp [h.port, offers], inputs := rest }

theorem resetEvent_sameControl : s.resetEvent.SameControl s'.resetEvent := by
  constructor <;> simp [h.port, h.inputs, h.responses]

/-- A standing offer of one is matched by one of the same shape at the other. -/
theorem port_of_sameControl {c : Command} {later : List Command} (port : s.port = c :: later) :
    ∃ c' later', s'.port = c' :: later' ∧ commandShape c' = commandShape c ∧
      later'.map commandShape = later.map commandShape := by
  have shapes := h.port
  rw [port, List.map_cons, eq_comm, List.map_eq_cons_iff] at shapes
  exact shapes

theorem xorb_of_sameControl {c : Command} {later : List Command} {d : Byte} (port : s.port = c :: later)
    (dec : decodeCommand c = .instr (.xorb d)) :
    ∃ c' later' d', s'.port = c' :: later' ∧ decodeCommand c' = .instr (.xorb d') ∧
      later'.map commandShape = later.map commandShape := by
  obtain ⟨c', later', port', shape, rest⟩ := port_of_sameControl h port
  obtain ⟨d', dec'⟩ := (commandShape_xorb_iff c').1 (shape.trans ((commandShape_xorb_iff c).2 ⟨d, dec⟩))
  exact ⟨c', later', d', port', dec', rest⟩

/-- A write to X or KS and a move of the sequencer, the same in both, leave the control equal. -/
theorem buffers_sameControl {x x' ks ks' : Words} {seq : Seq} :
    State.SameControl { s with x := x, ks := ks, seq := seq } { s' with x := x', ks := ks', seq := seq } :=
  { h with seq := rfl }

/-- States of equal control take steps of the same case, to states of equal control: no case is chosen by a word of S, KS or
X, by PEND, or by an operand (R96, R154). -/
theorem stepCase_of_sameControl {t : State} (taken : StepCase s t) : ∃ t', StepCase s' t' ∧ t.SameControl t' := by
  cases taken with
  | wait idle port eq =>
    have empty' : s'.port = [] := by simpa [port, eq_comm] using h.port
    exact ⟨s', .wait (h.seq ▸ idle) empty' rfl, eq ▸ h⟩
  | init idle c later port key nonce ctr dec eq =>
    obtain ⟨c', later', port', shape, rest⟩ := port_of_sameControl h port
    obtain ⟨key', nonce', ctr', dec'⟩ :=
      (commandShape_init_iff c').1 (shape.trans ((commandShape_init_iff c).2 ⟨key, nonce, ctr, dec⟩))
    refine ⟨_, .init (h.seq ▸ idle) c' later' port' key' nonce' ctr' dec' rfl, ?_⟩
    constructor <;> simp [eq, h.seq, h.errIll, h.errNoinit, h.inputs, h.responses, rest]
  | serve idle c later port d dec initd cur eq =>
    obtain ⟨c', later', d', port', dec', rest⟩ := xorb_of_sameControl h port dec
    refine ⟨_, .serve (h.seq ▸ idle) c' later' port' d' dec' (h.initd ▸ initd) (h.cur ▸ cur) rfl, ?_⟩
    constructor <;> simp [eq, h.cur, h.seq, h.initd, h.errIll, h.errNoinit, h.inputs, h.responses, rest]
  | start idle c later port d dec initd cur eq =>
    obtain ⟨c', later', d', port', dec', rest⟩ := xorb_of_sameControl h port dec
    refine ⟨_, .start (h.seq ▸ idle) c' later' port' d' dec' (h.initd ▸ initd) (h.cur ▸ cur) rfl, ?_⟩
    constructor <;> simp [eq, h.cur, h.initd, h.errIll, h.errNoinit, h.inputs, h.responses, rest]
  | noContext idle c later port d dec initd eq =>
    obtain ⟨c', later', d', port', dec', rest⟩ := xorb_of_sameControl h port dec
    refine ⟨_, .noContext (h.seq ▸ idle) c' later' port' d' dec' (h.initd ▸ initd) rfl, ?_⟩
    constructor <;> simp [eq, h.cur, h.seq, h.initd, h.errIll, h.inputs, h.responses, rest]
  | illegal idle c later port r dec eq =>
    obtain ⟨c', later', port', shape, rest⟩ := port_of_sameControl h port
    obtain ⟨r', dec'⟩ := (commandShape_illegal_iff c').1 (shape.trans ((commandShape_illegal_iff c).2 ⟨r, dec⟩))
    refine ⟨_, .illegal (h.seq ▸ idle) c' later' port' r' dec' rfl, ?_⟩
    constructor <;> simp [eq, h.cur, h.seq, h.initd, h.errNoinit, h.inputs, h.responses, rest]
  | colround ph lt even eq =>
    exact ⟨_, .colround (h.seq ▸ ph) (h.seq ▸ lt) (h.seq ▸ even) rfl, by rw [eq, h.seq]; exact buffers_sameControl h⟩
  | diaground ph lt odd eq =>
    exact ⟨_, .diaground (h.seq ▸ ph) (h.seq ▸ lt) (h.seq ▸ odd) rfl, by rw [eq, h.seq]; exact buffers_sameControl h⟩
  | feedfwd seq eq => exact ⟨_, .feedfwd (h.seq ▸ seq) rfl, by rw [eq]; exact buffers_sameControl h⟩
  | ctrinc seq eq =>
    refine ⟨_, .ctrinc (h.seq ▸ seq) rfl, ?_⟩
    constructor <;> simp [eq, h.initd, h.errIll, h.errNoinit, h.port, h.inputs, h.responses]

/-- States of equal control stop alike. -/
theorem stopCase_of_sameControl {f : Fault} (stopped : StopCase s f) : StopCase s' f := by
  cases stopped with
  | sequencer dec eq => exact .sequencer (h.seq ▸ dec) eq
  | cursor idle c later port d dec initd above eq =>
    obtain ⟨c', later', d', port', dec', -⟩ := xorb_of_sameControl h port dec
    exact .cursor (h.seq ▸ idle) c' later' port' d' dec' (h.initd ▸ initd) (h.cur ▸ above) eq

end sameControl

/-- Settles O56: the reset input, the case of the step and the case of the stop are the same in both states. -/
theorem controlIgnoresSecrets : Obligations.ControlIgnoresSecrets := by
  intro s s' h
  have reset := resetAsserted_of_sameControl h
  have received := receive_sameControl h
  constructor
  · intro t stepped
    rcases step_cases stepped with ⟨asserted, rfl⟩ | ⟨released, taken⟩
    · exact ⟨_, step_of_reset (reset ▸ asserted), resetEvent_sameControl received⟩
    · obtain ⟨t', taken', same⟩ := stepCase_of_sameControl received taken
      exact ⟨t', step_of_case (reset ▸ released) taken', same⟩
  · intro f faulted
    obtain ⟨released, stopped⟩ := stopCase_of_step faulted
    exact step_of_stopCase (reset ▸ released) (stopCase_of_sameControl received stopped)

end Sys2Proof.Machine

/-! SUPPORT. Proofs of the statements about the commands (41_commands.md): the step that accepts one, the effect and the frame
of each instruction, and the keystream as the host's runs of commands see it (R109 to R111). -/

namespace Sys2Proof.Machine

open Sys2Proof

/-! ### The step -/

/-- Settles O16, by whether an input is scheduled. -/
theorem inputArrives : Obligations.InputArrives := by
  refine ⟨fun s empty => ?_, fun s input later scheduled => ?_⟩
  · simp [State.receive, State.resetAsserted, empty]
  · simp [State.receive, State.resetAsserted, scheduled]

/-- What an idle CORE does with the offer that stands at its port (R100). -/
theorem step_of_offer {s : State} {c : Command} {later : List Command} (noReset : s.resetAsserted = false)
    (idle : s.seq = .idle) (port : s.receive.port = c :: later) :
    step s = match decodeCommand c with
      | .instr i => exec i { s.receive with port := later }
      | .rejected _ => .next (State.raise { s.receive with port := later } .illegalCommand) := by
  rw [step_of_noReset noReset, selectStep_idle (by rwa [receive_seq])]
  cases dec : decodeCommand c <;> simp [State.selectCommand, port, dec]

/-- Settles O18: the instruction case of `step_of_offer`. -/
theorem stepRunsTheAcceptedCommand : Obligations.StepRunsTheAcceptedCommand := by
  intro s c later i noReset idle port dec
  rw [step_of_offer noReset idle port, dec]

/-- A step of a busy CORE takes no command from the port, and only CTRINC answers (R100, R145). -/
theorem StepCase.busy_port {s t : State} (h : StepCase s t) (busy : s.seq.ph ≠ .idle) :
    t.port = s.port ∧ (s.seq.ph ≠ .ctrinc → t.responses = s.responses) := by
  cases h with
  | wait idle | init idle | serve idle | start idle | noContext idle | illegal idle => simp [idle] at busy
  | colround _ _ _ eq | diaground _ _ _ eq | feedfwd _ eq => simp [eq]
  | ctrinc seq eq => simp [seq, eq]

/-- Settles O21, by the cases of a busy step. -/
theorem busyCoreAcceptsNothing : Obligations.BusyCoreAcceptsNothing := by
  intro s t noReset busy h
  simpa using (stepCase_of_step noReset h).busy_port (by rwa [receive_seq])

/-! ### INIT -/

/-- Byte `j` of a packed word (R42). -/
theorem pack4_byte (b0 b1 b2 b3 : Byte) (j : Fin 4) :
    (pack4 b0 b1 b2 b3).extractLsb' (8 * j.val) 8 = #v[b0, b1, b2, b3][j] := by
  apply BitVec.eq_of_toNat_eq
  rw [BitVec.extractLsb'_toNat, packingIsLittleEndian, Nat.shiftRight_eq_div_pow]
  fin_cases j <;> simp <;> omega

theorem keyWord_byte (key : Key) (i : Fin 8) (j : Fin 4) :
    (keyWord key i).extractLsb' (8 * j.val) 8 = key[4 * i.val + j.val]'(by omega) := by
  rw [keyWord, pack4_byte]
  fin_cases j <;> rfl

theorem nonceWord_byte (nonce : Nonce) (i : Fin 3) (j : Fin 4) :
    (nonceWord nonce i).extractLsb' (8 * j.val) 8 = nonce[4 * i.val + j.val]'(by omega) := by
  rw [nonceWord, pack4_byte]
  fin_cases j <;> rfl

/-- The eight key words stand in S[4..11] (R23, R101). -/
theorem readS_keyWord {s : State} {key : Key} {nonce : Nonce} {ctr : BitVec 64} (h : s.ctx = contextWords key nonce ctr)
    (i : Fin 8) : s.readS ⟨4 + i.val, by omega⟩ = keyWord key i := by
  rw [State.readS, dif_neg (by simp), h]
  fin_cases i <;> rfl

/-- Settles O24: INIT writes the words of R101, whose bytes are those of its operands. -/
theorem initBuildsTheContext : Obligations.InitBuildsTheContext := by
  intro key nonce ctr s
  refine ⟨_, rfl, fun i j => ?_, rfl, rfl, nonceWord_byte nonce 1, nonceWord_byte nonce 2, rfl⟩
  rw [readS_keyWord rfl, keyWord_byte]

/-! ### XORB -/

/-- The next states of an XORB (R102). -/
theorem exec_xorb_cases {d : Byte} {s t : State} (h : exec (.xorb d) s = .next t) :
    t = s.raise .notInitialised ∨ t = s.serveByte d ∨ t = s.startBlock d := by
  simp only [exec, execXorb] at h
  split_ifs at h <;> injection h with h
  · exact .inl h.symm
  · exact .inr (.inl h.symm)
  · exact .inr (.inr h.symm)

theorem exec_xorb_serve (d : Byte) {s : State} (initd : s.initd = true) (below : s.cur.toNat < 64) :
    exec (.xorb d) s = .next (s.serveByte d) := by
  rw [exec, execXorb, if_neg (by simp [initd]), if_pos below]

/-- Settles O28: CUR is below 64, so the XORB is served, with the byte that the byte view has at CUR. -/
theorem xorbServesTheBufferedByte : Obligations.XorbServesTheBufferedByte := by
  intro d s w j initd cur
  refine ⟨_, exec_xorb_serve d initd (by omega), ?_, ?_⟩
  · rw [serveByte_cur, BitVec.toNat_add, BitVec.toNat_ofNat]
    omega
  · rw [State.serveByte, cur, ksByte_of_word]
    rfl

/-! ### The frame of each instruction -/

/-- Settles O40, by the instructions; an XORB is refused, served, or starts a block. -/
theorem instructionsKeepTheirFrame : Obligations.InstructionsKeepTheirFrame := by
  intro i s t h
  cases i with
  | init | colround | diaground | feedfwd =>
    injection h with h
    simp [← h]
  | xorb d =>
    rcases exec_xorb_cases h with rfl | rfl | rfl <;> simp
  | ctrinc =>
    rw [exec, execCtrinc_eq] at h
    injection h with h
    subst h
    have words (j : Fin 16) : s.advanceCounter.completeXorb.readS j = s.advanceCounter.readS j :=
      readS_congr (completeXorb_ctx _) j
    simp +contextual [words, readS_advanceCounter]

/-! ### The closed form of the keystream -/

theorem xorStream_append (w : Words) (n : Nat) (first second : List Byte) :
    xorStream w n (first ++ second) = xorStream w n first ++ xorStream w (n + first.length) second := by
  induction first generalizing n with
  | nil => rfl
  | cons b first ih => simp [xorStream, ih, Nat.add_assoc, Nat.add_comm 1]

/-- XORing twice with the same keystream gives the bytes back (R110). -/
theorem xorStream_xorStream (w : Words) (n : Nat) (bytes : List Byte) :
    xorStream w n (xorStream w n bytes) = bytes := by
  induction bytes generalizing n with
  | nil => rfl
  | cons b bytes ih => simp [xorStream, ih]

theorem receive_of_noInput {s : State} (inputs : s.inputs = []) : s.receive = s ∧ s.resetAsserted = false :=
  inputArrives.1 s inputs

/-- Commands that decode alike are accepted alike (R67, R100). -/
theorem step_of_decode_eq {s : State} {c c' : Command} {later : List Command} (inputs : s.inputs = [])
    (idle : s.seq = .idle) (port : s.port = c :: later) (same : decodeCommand c = decodeCommand c') :
    step s = step { s with port := c' :: later } := by
  obtain ⟨received, noReset⟩ := receive_of_noInput inputs
  obtain ⟨received', noReset'⟩ := receive_of_noInput (s := { s with port := c' :: later }) inputs
  rw [step_of_offer noReset idle (received ▸ port), step_of_offer noReset' idle (later := later) (by rw [received']),
    received, received', same]

/-- A run of `m` steps that gives `answers`, the OK ones to XORBs of the bytes `data`, from keystream byte `n` of the context
`w` on: one step for each answer, and 22 for each block made (R109, R153). -/
structure StreamRun (w : Words) (n : Nat) (data : List Byte) (s t : State) (m : Nat) (answers : List Response) : Prop where
  ran : runSteps m s = .next t
  atByte : t.AtByte w (n + data.length)
  responses : t.responses = s.responses ++ answers
  ok : answers.filter (fun r => r.rsp = .ok) = okResponses (xorStream w n data)
  steps : m + 22 * blocksFor n = answers.length + 22 * blocksFor (n + data.length)

theorem StreamRun.nil {w : Words} {n : Nat} {s : State} (h : s.AtByte w n) : StreamRun w n [] s s 0 [] where
  ran := rfl
  atByte := h
  responses := (List.append_nil _).symm
  ok := rfl
  steps := rfl

theorem StreamRun.trans {w : Words} {n m m' : Nat} {data data' : List Byte} {s t u : State}
    {answers answers' : List Response} (first : StreamRun w n data s t m answers)
    (second : StreamRun w (n + data.length) data' t u m' answers') :
    StreamRun w n (data ++ data') s u (m + m') (answers ++ answers') where
  ran := (runSteps_add first.ran).trans second.ran
  atByte := by rw [List.length_append, ← Nat.add_assoc]; exact second.atByte
  responses := by rw [second.responses, first.responses, List.append_assoc]
  ok := by rw [List.filter_append, first.ok, second.ok, xorStream_append]; exact List.map_append.symm
  steps := by
    have := first.steps
    have := second.steps
    rw [List.length_append, List.length_append, ← Nat.add_assoc n]
    omega

/-- A refused command uses no byte of the stream: "Refused commands (ILLEGAL, NOINIT) change none of these" (R109). -/
theorem streamRun_illegal {s : State} {w : Words} {n : Nat} (h : s.AtByte w n) {c : Command} {later : List Command}
    {r : Reject} (port : s.port = c :: later) (dec : decodeCommand c = .rejected r) :
    ∃ t, StreamRun w n [] s t 1 [{ rsp := .illegal, dout := 0#8 }] ∧ t.port = later := by
  have refused := step_of_case_noInput h.inputs (.illegal h.idle c later port r dec rfl)
  refine ⟨_, { ran := runSteps_one refused, atByte := ?_, responses := rfl, ok := rfl, steps := rfl }, rfl⟩
  exact { h with words := (words_congr rfl).trans h.words }

/-- The steps of the XORB that uses byte `n`, by the blocks they make (R153). -/
theorem stepsAtByte_blocks (n : Nat) : stepsAtByte n + 22 * blocksFor n = 1 + 22 * blocksFor (n + 1) := by
  unfold stepsAtByte blocksFor
  split <;> omega

/-- An XORB uses one byte of the stream, whatever its PAYLOAD is (R67, R109). -/
theorem streamRun_xorb {s : State} {w : Words} {n : Nat} (h : s.AtByte w n) {c : Command} {later : List Command}
    {d : Byte} (port : s.port = c :: later) (dec : decodeCommand c = .instr (.xorb d)) :
    ∃ t, StreamRun w n [d] s t (stepsAtByte n) [{ rsp := .ok, dout := d ^^^ keystreamByte w n }] ∧ t.port = later := by
  have offered : State.AtByte { s with port := xorbCommand d :: later } w n :=
    { h with words := (words_congr rfl).trans h.words }
  have accepted : step s = step { s with port := xorbCommand d :: later } :=
    step_of_decode_eq h.inputs h.idle port (dec.trans (decodeCommand_xorb d).symm)
  obtain ⟨k, positive⟩ : ∃ k, stepsAtByte n = k + 1 := by unfold stepsAtByte; split <;> exact ⟨_, rfl⟩
  obtain ⟨t, ran, atNext, rest, answered⟩ := runSteps_xorb_atByte offered rfl
  refine ⟨t, { ran := ?_, atByte := atNext, responses := answered, ok := rfl, steps := stepsAtByte_blocks n }, rest⟩
  rw [positive, runSteps] at ran ⊢
  rw [accepted]
  exact ran

/-- The XORBs of a list of commands without INIT take the bytes of the stream in turn (R109). -/
theorem streamRun_commands {s : State} {w : Words} {n : Nat} (h : s.AtByte w n) {commands : List Command}
    (port : s.port = commands) (noInit : ∀ c ∈ commands, c.cmd ≠ 0x0001) :
    ∃ t m answers, StreamRun w n (commands.filterMap xorbData) s t m answers ∧ t.port = [] ∧
      answers.length = commands.length := by
  induction commands generalizing s n with
  | nil => exact ⟨s, 0, [], .nil h, port, rfl⟩
  | cons c later ih =>
    obtain ⟨notInit, noInit⟩ := List.forall_mem_cons.1 noInit
    rcases decodeCommand_cases c with init | ⟨d, dec⟩ | ⟨r, dec⟩
    · exact absurd ((decodeCommand_init_iff c).1 init) notInit
    · obtain ⟨t, first, rest⟩ := streamRun_xorb h port dec
      obtain ⟨u, m, answers, run, empty, length⟩ := ih first.atByte rest noInit
      have data : xorbData c = some d := by rw [xorbData, dec]
      rw [List.filterMap_cons_some data]
      exact ⟨u, _, _, first.trans run, empty, congrArg (· + 1) length⟩
    · obtain ⟨t, first, rest⟩ := streamRun_illegal h port dec
      obtain ⟨u, m, answers, run, empty, length⟩ := ih first.atByte rest noInit
      have data : xorbData c = none := by rw [xorbData, dec]
      rw [List.filterMap_cons_none data]
      exact ⟨u, _, _, first.trans run, empty, congrArg (· + 1) length⟩

/-- Settles O51: the run of the commands from byte 0 of the context. -/
theorem keystreamClosedForm : Obligations.KeystreamClosedForm := by
  rintro s commands data idle initd cur inputs port noInit rfl
  obtain ⟨t, m, answers, run, empty, length⟩ := streamRun_commands (atByte_zero idle inputs initd cur) port noInit
  have steps := run.steps
  have atEnd := run.atByte
  rw [Nat.zero_add] at steps atEnd
  have taken : m = commands.length + 22 * blocksFor (commands.filterMap xorbData).length := by
    rw [← length, ← steps]; rfl
  refine ⟨t, answers, taken ▸ run.ran, ⟨atEnd.idle, empty⟩, run.responses, length, run.ok, atEnd.cur, ?_⟩
  rw [State.bc, atEnd.words, wordsAfter, counterOf_withCounter]
  rfl

/-! ### Encryption and decryption -/

/-- An INIT leaves a CORE that has used no byte of the new context (R101). -/
theorem atByte_afterInit {s : State} (idle : s.seq = .idle) (inputs : s.inputs = []) (later : List Command) (key : Key)
    (nonce : Nonce) (ctr : BitVec 64) :
    (s.afterInit later key nonce ctr).AtByte (State.words { s with ctx := contextWords key nonce ctr }) 0 := by
  have words : State.words { s with ctx := contextWords key nonce ctr } = (s.afterInit later key nonce ctr).words :=
    words_congr rfl
  rw [words]
  exact atByte_zero idle inputs rfl rfl

/-- INIT and the APPLY of a buffer answer (OK, 0x00) and the buffer XORed with the keystream of the new context (R105,
R110). -/
theorem runSteps_init_apply {s : State} (idle : s.seq = .idle) (inputs : s.inputs = []) (key : Key) (nonce : Nonce)
    (ctr : BitVec 64) (bytes : List Byte) :
    ∃ n t, runSteps n { s with port := initCommand key nonce ctr :: expandApply bytes } = .next t ∧ t.Finished ∧
      t.inputs = [] ∧ t.responses = s.responses ++
        okResponses (0x00 :: xorStream (State.words { s with ctx := contextWords key nonce ctr }) 0 bytes) := by
  have first := step_init (s := { s with port := initCommand key nonce ctr :: expandApply bytes }) idle inputs rfl
    (decodeCommand_initCommand key nonce ctr)
  obtain ⟨m, t, ran, atEnd, empty, answered⟩ :=
    runSteps_apply_atByte (atByte_afterInit idle inputs (expandApply bytes) key nonce ctr) rfl
  refine ⟨m + 1, t, (runSteps_succ first).trans ran, ⟨atEnd.idle, empty⟩, atEnd.inputs, ?_⟩
  rw [answered]
  exact List.append_assoc _ _ _

/-- Settles O53: both runs start the same stream, and XORing twice with it gives the bytes back. -/
theorem roundTripGivesTheBytesBack : Obligations.RoundTripGivesTheBytesBack := by
  intro s key nonce ctr bytes _ finished inputs
  obtain ⟨n, t, ran, finished', inputs', answered⟩ := runSteps_init_apply finished.idle inputs key nonce ctr bytes
  refine ⟨n, t, _, ran, finished', rfl, answered, ?_⟩
  obtain ⟨m, u, ran', finished'', -, answered'⟩ := runSteps_init_apply finished'.idle inputs' key nonce ctr
    (xorStream (State.words { s with ctx := contextWords key nonce ctr }) 0 bytes)
  have words : State.words { t with ctx := contextWords key nonce ctr } =
      State.words { s with ctx := contextWords key nonce ctr } := words_congr rfl
  rw [words, xorStream_xorStream] at answered'
  exact ⟨m, u, ran', finished'', answered'⟩

/-! ### Buffers one after the other -/

/-- From `s` offered `commands`, `n` steps use these up and lead to `t`, whatever is offered behind them, which stays (R100). -/
def State.UsesUp (s : State) (commands : List Command) (n : Nat) (t : State) : Prop :=
  ∀ later, runSteps n { s with port := commands ++ later } = .next { t with port := later }

theorem State.UsesUp.trans {s t u : State} {first second : List Command} {n m : Nat} (h : s.UsesUp first n t)
    (h' : t.UsesUp second m u) : s.UsesUp (first ++ second) (n + m) u := by
  intro later
  rw [List.append_assoc, runSteps_add (h (second ++ later)), h' later]

/-- The run of the commands alone. -/
theorem State.UsesUp.run {s t : State} {commands : List Command} {n : Nat} (h : s.UsesUp commands n t) :
    runSteps n { s with port := commands } = .next { t with port := [] } := by
  simpa using h []

/-- A command that takes one step, if that step looks at nothing behind it. -/
theorem usesUp_of_stepCase {s t : State} {c : Command} (inputs : s.inputs = [])
    (taken : ∀ later, StepCase { s with port := c :: later } { t with port := later }) : s.UsesUp [c] 1 t :=
  fun later => runSteps_one (step_of_case_noInput inputs (taken later))

/-- What stands at the port plays no part in what a block leaves. -/
theorem afterBlock_setPort (s : State) (port later : List Command) (d : Byte) :
    State.afterBlock { s with port := port } later d = { s.afterBlock [] d with port := later } := by
  have words : State.words { s with port := port } = s.words := words_congr rfl
  have ctx : (State.advanceCounter { s with port := port }).ctx = s.advanceCounter.ctx := advanceCounter_ctx_congr rfl
  simp only [State.afterBlock, words, ctx]

/-- An idle CORE that meets the control invariant, with no input to come, uses up an XORB, by any of its cases (R102). -/
theorem exists_usesUp_xorb {s : State} (inv : s.Inv) (idle : s.seq = .idle) (inputs : s.inputs = []) (d : Byte) :
    ∃ (n : Nat) (t : State), s.UsesUp [xorbCommand d] n t ∧ t.Inv ∧ t.seq = .idle ∧ t.inputs = [] := by
  have dec := decodeCommand_xorb d
  cases initd : s.initd with
  | false =>
    refine ⟨1, s.raise .notInitialised, usesUp_of_stepCase inputs fun later => ?_, ?_, idle, inputs⟩
    · exact .noContext idle _ later rfl d dec initd rfl
    · exact inv_of_idle idle inv.cur_le inv.uninit_cur
  | true =>
    rcases Nat.lt_or_eq_of_le inv.cur_le with below | full
    · refine ⟨1, s.serveByte d, usesUp_of_stepCase inputs fun later => ?_, ?_, idle, inputs⟩
      · exact .serve idle _ later rfl d dec initd below rfl
      · refine inv_of_idle idle ?_ (by simp [initd])
        rw [serveByte_cur, BitVec.toNat_add, BitVec.toNat_ofNat]
        omega
    · refine ⟨23, s.afterBlock [] d, fun later => ?_, inv_of_idle rfl (by simp [State.afterBlock]) ?_, rfl, inputs⟩
      · rw [← afterBlock_setPort s (xorbCommand d :: later)]
        exact runSteps_xorb_block inputs idle rfl dec initd (BitVec.eq_of_toNat_eq full)
      · exact fun uninit => absurd (initd.symm.trans uninit) (by decide)

theorem exists_usesUp_apply {s : State} (inv : s.Inv) (idle : s.seq = .idle) (inputs : s.inputs = []) (bytes : List Byte) :
    ∃ (n : Nat) (t : State), s.UsesUp (expandApply bytes) n t ∧ t.Inv ∧ t.seq = .idle ∧ t.inputs = [] := by
  induction bytes generalizing s with
  | nil => exact ⟨0, s, fun _ => rfl, inv, idle, inputs⟩
  | cons d bytes ih =>
    obtain ⟨n, t, first, inv', idle', inputs'⟩ := exists_usesUp_xorb inv idle inputs d
    obtain ⟨m, u, rest, atEnd⟩ := ih inv' idle' inputs'
    exact ⟨n + m, u, first.trans rest, atEnd⟩

/-- Settles O54: the two runs one after the other use up the concatenation. -/
theorem splitBuffersAreOneStream : Obligations.SplitBuffersAreOneStream := by
  intro s first second inv finished inputs
  obtain ⟨n, t, one, inv', idle', inputs'⟩ := exists_usesUp_apply inv finished.idle inputs first
  obtain ⟨m, u, two, -, idle'', -⟩ := exists_usesUp_apply inv' idle' inputs' second
  have both := one.trans two
  rw [expandApply, expandApply, ← List.map_append] at both
  exact ⟨n, _, m, _, one.run, ⟨idle', rfl⟩, two.run, ⟨idle'', rfl⟩, both.run⟩

end Sys2Proof.Machine

/-! SUPPORT. Proofs of the statements about exceptions (60_exceptions.md): the two error outcomes, an idle CORE, and several
instances under a schedule. -/

namespace Sys2Proof.Machine

open Sys2Proof

/-! ### The error outcomes and the idle CORE -/

/-- Settles O19: the step is the case `illegal`, and raising IllegalCommand writes no more than R121 says. -/
theorem illegalCommandIsRefused : Obligations.IllegalCommandIsRefused := by
  intro s c later r noReset idle port dec
  exact step_of_case noReset (.illegal ((receive_seq s).trans idle) c later port r dec rfl)

/-- Settles O20: the step is the case `wait`. -/
theorem idleCoreKeepsItsState : Obligations.IdleCoreKeepsItsState := by
  intro s noReset idle port
  exact step_of_case noReset (.wait ((receive_seq s).trans idle) port rfl)

/-- Settles O30: XORB tests INITD first, and raising NotInitialised writes no more than R122 says. -/
theorem xorbWithoutContextIsRefused : Obligations.XorbWithoutContextIsRefused := by
  intro d s uninit
  rw [exec, execXorb, if_pos uninit]
  rfl

/-! ### Several instances -/

/-- A step of instance `i` moves that instance. -/
theorem stepInstance_getElem?_self (instances : List State) (i : Nat) :
    (stepInstance instances i)[i]? = instances[i]?.map stepOrStay := by
  simp [stepInstance]

/-- A step of instance `i` leaves every other instance where it is (R133). -/
theorem stepInstance_getElem?_of_ne (instances : List State) {i j : Nat} (ne : i ≠ j) :
    (stepInstance instances i)[j]? = instances[j]? := by
  simp [stepInstance, ne]

theorem runSchedule_cons (instances : List State) (i : Nat) (schedule : List Nat) :
    runSchedule instances (i :: schedule) = runSchedule (stepInstance instances i) schedule := rfl

/-- Settles O57, by induction on the schedule: its first step is the instance's own, or leaves it where it is. -/
theorem instancesShareNothing : Obligations.InstancesShareNothing := by
  intro instances schedule j s at_j
  induction schedule generalizing instances s with
  | nil => exact at_j
  | cons i schedule ih =>
    rw [runSchedule_cons]
    rcases eq_or_ne i j with rfl | ne
    · rw [List.count_cons_self, runAlone]
      exact ih _ _ (by rw [stepInstance_getElem?_self, at_j, Option.map_some])
    · rw [List.count_cons_of_ne ne]
      exact ih _ _ (by rwa [stepInstance_getElem?_of_ne instances ne])

end Sys2Proof.Machine

/-! SUPPORT. Proof of the statement about INITs that collide (70_reset_and_hazards.md R149): the context keeps of nonce word 0
and the counter nothing but the block counter they add up to. -/

namespace Sys2Proof.Machine

open Sys2Proof

/-- Two words put together are determined by the double word (R28). -/
theorem words_eq_of_append_eq {high high' low low' : Word} (h : high ++ low = high' ++ low') : high = high' ∧ low = low' := by
  constructor
  · rw [← BitVec.extractLsb'_append_eq_left (a := high) (b := low), h, BitVec.extractLsb'_append_eq_left]
  · rw [← BitVec.extractLsb'_append_eq_right (a := high) (b := low), h, BitVec.extractLsb'_append_eq_right]

/-- The words that INIT writes depend on nonce word 0 and the counter through the starting block counter only (R25, R149). -/
theorem contextWords_congr {key : Key} {nonce nonce' : Nonce} {ctr ctr' : BitVec 64}
    (bc : ctr + (nonceWord nonce 0).setWidth 64 <<< 32 = ctr' + (nonceWord nonce' 0).setWidth 64 <<< 32)
    (word1 : nonceWord nonce 1 = nonceWord nonce' 1) (word2 : nonceWord nonce 2 = nonceWord nonce' 2) :
    contextWords key nonce ctr = contextWords key nonce' ctr' := by
  rw [← append_add_high, ← append_add_high] at bc
  obtain ⟨high, low⟩ := words_eq_of_append_eq bc
  simp only [contextWords, high, low, word1, word2]

/-- Settles O27: INIT uses its operands through the words it writes only, and these are equal. -/
theorem collidingOperandsGiveOneContext : Obligations.CollidingOperandsGiveOneContext := by
  intro key nonce nonce' ctr ctr' s bc word1 word2
  rw [exec, exec, execInit, execInit, contextWords_congr bc word1 word2]

end Sys2Proof.Machine

/-! SUPPORT. Proof of the statement about the parameter CTR_WRAP (93_implementation_defined.md V7): CTRINC under each of its
values. -/

namespace Sys2Proof.Machine

open Sys2Proof

/-- Under WRAP CTRINC completes in every state (V7). -/
theorem ctrincUnder_wrap (s : State) : ctrincUnder .wrap s = .next s.advanceCounter.completeXorb :=
  if_neg fun h => nomatch h.1

/-- Under STOP CTRINC tests the block counter first (V7). -/
theorem ctrincUnder_stop_of_last {s : State} (last : s.bc = BitVec.allOnes 64) :
    ctrincUnder .stop s = .fault .counterExhausted :=
  if_pos ⟨rfl, last⟩

theorem ctrincUnder_stop_of_ne_last {s : State} (below : s.bc ≠ BitVec.allOnes 64) :
    ctrincUnder .stop s = .next s.advanceCounter.completeXorb :=
  if_neg fun h => below h.2

/-- This machine's CTRINC is that of WRAP (log entry 14). -/
theorem exec_ctrinc_eq_wrap (s : State) : exec .ctrinc s = ctrincUnder .wrap s := by
  rw [exec, execCtrinc_eq, ctrincUnder_wrap]

/-- Settles O38: STOP differs from WRAP in its test for the last block counter only, and there adding one gives 0. -/
theorem counterWrapParameter : Obligations.CounterWrapParameter := by
  refine ⟨exec_ctrinc_eq_wrap, fun s below => ?_, fun s last => ?_⟩
  · have ne_last : s.bc ≠ BitVec.allOnes 64 := fun eq => by simp [eq] at below
    rw [ctrincUnder_stop_of_ne_last ne_last, ctrincUnder_wrap]
  · have all_ones : s.bc = BitVec.allOnes 64 := BitVec.eq_of_toNat_eq last
    refine ⟨ctrincUnder_stop_of_last all_ones, _, ctrincUnder_wrap s, ?_⟩
    rw [ctrincAdvancesTheBlockCounter s _ ((exec_ctrinc_eq_wrap s).trans (ctrincUnder_wrap s)), all_ones]
    decide

end Sys2Proof.Machine
